-- ==== Sys2Proof/Word.lean ====
section
/-! DEFINITION. The bit-vector types of the block's values, at the widths the spec fixes (R7, R9, R40). -/

namespace Sys2Proof

/-- One lane: an unsigned 8-bit value (R7, `LANE_W = 8`). -/
abbrev Byte := BitVec 8

/-- The operand, sixteen lanes of eight bits on one 128-bit port (R7, R24, `VEC_W = 128`). -/
abbrev LaneVector := BitVec 128

/-- The sixteen significant bits of a result, bit `i` for lane `i` (R7, R24, `MASK_W = 16`). -/
abbrev LaneMask := BitVec 16

/-- The variant select (R9, `SEL_W = 3`). -/
abbrev Sel := BitVec 3

/-- The written form `REQ = {sel, vec}` of a request (R40). -/
abbrev ReqWord := BitVec 131

end Sys2Proof
end

