-- ==== Sys2Proof/Machine/Constants.lean ====
section
/-! DEFINITION. The constants of the datapaths: hardwired, "compile-time constants local to each function", with no port
through which they could be written (R27, R38, R41). A table's entries past its last one are never used. -/

namespace Sys2Proof.Machine

/-- The weight table of variants 1, 2 and 6: "1,2,4,...,128 repeated across two 8-lane halves" (R61, R101). -/
def WT (i : Nat) : Byte :=
  [0x01#8, 0x02#8, 0x04#8, 0x08#8, 0x10#8, 0x20#8, 0x40#8, 0x80#8,
   0x01#8, 0x02#8, 0x04#8, 0x08#8, 0x10#8, 0x20#8, 0x40#8, 0x80#8].getD i 0#8

/-- The sign-extraction shift of variants 3 and 6 (R71, R101). -/
def signShift : Nat := 7

/-- The strides of variant 3 at element widths 16, 32 and 64 (R71). -/
def stride16 : Nat := 7
/-- The stride at element width 32 (R71). -/
def stride32 : Nat := 14
/-- The stride at element width 64 (R71). -/
def stride64 : Nat := 28

/-- The sign mask of variant 4, the same for every lane (R81). -/
def signMask : Byte := 0x80#8

/-- The shift table of variant 4, by the lane's index within its half (R81). -/
def SH4 (j : Nat) : Int := [-7, -6, -5, -4, -3, -2, -1, 0].getD j 0

/-- The word mask of variant 5: bits 7 and 8, the same for every word (R91). -/
def pairMask : BitVec 16 := 0x0180#16

/-- The offset table of variant 5, by word (R91). -/
def OFF5 (k : Nat) : Int := [-7, -5, -3, -1, 1, 3, 5, 7].getD k 0

end Sys2Proof.Machine
end

