-- ==== Sys2Proof/Config.lean ====
section
/-! DEFINITION. What the spec leaves to the implementation or leaves open: the width of the result port and the
value of an undefined result. Neither has a body, so every claim holds whatever they are. -/

namespace Sys2Proof.Config

/-- The widths the result port may have: `OUT_W >= 16` (R8). The value written here is the spec's default, used when
the model is run as a program; no proof can see it through `outPort`. -/
structure OutWidth where
  width : Nat := 32
  atLeast16 : 16 ≤ width := by decide
  deriving Inhabited

/-- The result port of this implementation: the named parameter of R8, decision D5 of the spec (log 6). -/
opaque outPort : OutWidth

/-- `OUT_W`, the width in bits of `mask_o` (R8). -/
abbrev outW : Nat := outPort.width

/-- FREE VALUE (log 7): what `mask_o` shows when a strict variant is given a malformed operand, "an arbitrary
`OUT_W`-bit value under no law, chosen afresh at each evaluation" (R55 c, U1). It is applied to the number of values
drawn so far and to the request, so that nothing relates two draws. -/
opaque freeMask : Nat → Sel → LaneVector → BitVec outW

end Sys2Proof.Config
end

