-- ==== Sys2Proof/Machine/Operands.lean ====
section
/-! DEFINITION. The operand and its views: lanes, elements, bytes, halves, the sign bit of a lane, and when an operand
is well formed (R10, R12, R13, R14, R19, R31, R32). -/

namespace Sys2Proof.Machine

/-- A sequence of elements of width `w`, element `j` being `X j`: combinational wires, never state (R26). The number
of elements stands in the primitive or the stage that uses the sequence. -/
abbrev Elems (w : Nat) := Nat → BitVec w

/-- `elem_w(X, j) = X[w*j+w-1 : w*j]`, element 0 least significant (R13). -/
def elem {n : Nat} (w : Nat) (X : BitVec n) (j : Nat) : BitVec w := X.extractLsb' (w * j) w

/-- `lane(V, i) = V[8*i+7 : 8*i]` (R12, R31 b). -/
def lane (V : LaneVector) (i : Nat) : Byte := elem 8 V i

/-- `byte(X, k) = X[8k+7 : 8k]` (R19). -/
def byte {n : Nat} (X : BitVec n) (k : Nat) : Byte := elem 8 X k

/-- The `n`-bit value whose element `j` is `X j` for `j < count`, and whose other bits are 0 (R13: "viewed as one bit
vector", element 0 least significant). -/
def assemble {w : Nat} (n : Nat) (X : Elems w) : Nat → BitVec n
  | 0 => 0
  | count + 1 => assemble n X count ||| ((X count).setWidth n <<< (w * count))

/-- `lo8(A)`: lanes 0 to 7 of a 16-lane byte vector (R19). -/
def lo8 (A : Elems 8) : Elems 8 := fun j => A j

/-- `hi8(A)`: lanes 8 to 15 of a 16-lane byte vector (R19). -/
def hi8 (A : Elems 8) : Elems 8 := fun j => A (8 + j)

/-- `b(V, i) = lane(V, i)[7]`, the sign bit of lane `i` (R14). -/
def signBit (V : LaneVector) (i : Nat) : Bool := (lane V i).getLsbD 7

/-- `wf(V)`: every one of the sixteen lanes is `0x00` or `0xFF` (R14). -/
def wf (V : LaneVector) : Bool :=
  (List.range 16).all fun i => lane V i == 0x00#8 || lane V i == 0xFF#8

/-- The lane list of an operand, lane 0 first: also its bytes in a byte-addressed buffer, lane `i` at offset `i`
(R31 e, R48). -/
def lanesOf (V : LaneVector) : List Byte := (List.range 16).map (lane V)

/-- The operand whose lane list is `bytes`; a list of any other length than sixteen is no operand (R31, R32). -/
def vecOfLanes (bytes : List Byte) : Option LaneVector :=
  if bytes.length = 16 then some (assemble 128 (fun i => bytes.getD i 0) 16) else none

end Sys2Proof.Machine
end

