-- ==== Sys2Proof/Syntax.lean ====
section
/-! DEFINITION. Requests and instructions: one constructor of `Instr` for each row of spec/opcode_table.json. -/

namespace Sys2Proof

/-- A request: the pair of values on the two input ports at one evaluation (R25, R40). The hardware has two ports and
no packed request bus; `REQ` is a way of writing this pair. -/
structure Request where
  sel : Sel
  vec : LaneVector
  deriving DecidableEq, Repr

/-- The six operations, each with its one operand, the whole 128-bit vector (R2, R41, R42, R43). -/
inductive Instr where
  | packVariant1 (vec : LaneVector)
  | packVariant2 (vec : LaneVector)
  | packVariant3 (vec : LaneVector)
  | packVariant4 (vec : LaneVector)
  | packVariant5 (vec : LaneVector)
  | packVariant6 (vec : LaneVector)
  deriving DecidableEq, Repr

end Sys2Proof
end

