-- ==== Sys2Proof/WellFormed.lean ====
section
/-! DEFINITION. What a user of the block must present (R126 a, R126 b), as checks a request or an instruction passes or
fails. The block itself performs none of them (R55 a, R111). -/

namespace Sys2Proof

/-- The two capability classes of R53, named by the source. -/
inductive Capability where
  /-- Defined only when every lane is `0x00` or `0xFF`: variants 1, 2 and 5. -/
  | strictBooleanLanePacker
  /-- Defined for every operand: variants 3, 4 and 6. -/
  | signBitPacker
  deriving DecidableEq, Repr

/-- The class each variant belongs to (R53). -/
def Instr.capability : Instr → Capability
  | .packVariant1 _ => .strictBooleanLanePacker
  | .packVariant2 _ => .strictBooleanLanePacker
  | .packVariant3 _ => .signBitPacker
  | .packVariant4 _ => .signBitPacker
  | .packVariant5 _ => .strictBooleanLanePacker
  | .packVariant6 _ => .signBitPacker

/-- The operand of an instruction (R41). -/
def Instr.vec : Instr → LaneVector
  | .packVariant1 V => V
  | .packVariant2 V => V
  | .packVariant3 V => V
  | .packVariant4 V => V
  | .packVariant5 V => V
  | .packVariant6 V => V

/-- The instruction's operand lies in its variant's defined domain: well formed for a strict variant, anything for a
sign-bit variant (R54; the duty R126 b). -/
def Instr.wellFormed (i : Instr) : Bool :=
  match i.capability with
  | .strictBooleanLanePacker => Machine.wf i.vec
  | .signBitPacker => true

/-- The request's select is not reserved: 0 and 7 name no variant (R44; the duty R126 a). -/
def Request.legal (r : Request) : Bool := r.sel != 0#3 && r.sel != 7#3

end Sys2Proof
end

