-- ==== Sys2Proof/Decode.lean ====
section
/-! DEFINITION. The request encoding (R40 to R46) and the text form of R48: decoding, total on every request and rejecting
by name; encoding, written from the same table; the opcode map as rows; the written word `REQ`. -/

namespace Sys2Proof

/-- Why a request decodes to no instruction. -/
inductive DecodeError where
  /-- The select is 0 or 7, which name no variant (R44). -/
  | reservedSelect (sel : Sel)
  deriving DecidableEq, Repr

/-- `REQ = {sel, vec}`: the select in bits 130:128, the operand in bits 127:0 (R40). -/
def Request.toWord (r : Request) : ReqWord := r.sel ++ r.vec

/-- The request that a 131-bit word writes down (R40). -/
def Request.ofWord (w : ReqWord) : Request where
  sel := w.extractLsb' 128 3
  vec := w.extractLsb' 0 128

/-- The decoder: `sel = N` selects variant `N` for `N` in 1..6, and the two other values are reserved (R42, R43, R44).
The operand is not looked at (R113), and used whole and unmodified (R41). -/
def decode (r : Request) : Except DecodeError Instr :=
  match r.sel with
  | 1#3 => .ok (.packVariant1 r.vec)
  | 2#3 => .ok (.packVariant2 r.vec)
  | 3#3 => .ok (.packVariant3 r.vec)
  | 4#3 => .ok (.packVariant4 r.vec)
  | 5#3 => .ok (.packVariant5 r.vec)
  | 6#3 => .ok (.packVariant6 r.vec)
  | s => .error (.reservedSelect s)

/-- The decoder on the written word. -/
def decodeWord (w : ReqWord) : Except DecodeError Instr := decode (Request.ofWord w)

/-- The request that selects an instruction (R42). -/
def encode : Instr → Request
  | .packVariant1 V => ⟨1, V⟩
  | .packVariant2 V => ⟨2, V⟩
  | .packVariant3 V => ⟨3, V⟩
  | .packVariant4 V => ⟨4, V⟩
  | .packVariant5 V => ⟨5, V⟩
  | .packVariant6 V => ⟨6, V⟩

/-- The written word of an instruction. -/
def encodeWord (i : Instr) : ReqWord := (encode i).toWord

/-- A row of the opcode map as a match and a mask over `REQ` (R42). -/
structure OpcodeRow where
  mnemonic : String
  mask : ReqWord
  pattern : ReqWord
  deriving DecidableEq, Repr

/-- The six rows of R42: `mask = 0x7 << 128`, `match = N << 128`. -/
def opcodeRows : List OpcodeRow :=
  [ ⟨"pack_variant_1", 0x700000000000000000000000000000000#131, 0x100000000000000000000000000000000#131⟩,
    ⟨"pack_variant_2", 0x700000000000000000000000000000000#131, 0x200000000000000000000000000000000#131⟩,
    ⟨"pack_variant_3", 0x700000000000000000000000000000000#131, 0x300000000000000000000000000000000#131⟩,
    ⟨"pack_variant_4", 0x700000000000000000000000000000000#131, 0x400000000000000000000000000000000#131⟩,
    ⟨"pack_variant_5", 0x700000000000000000000000000000000#131, 0x500000000000000000000000000000000#131⟩,
    ⟨"pack_variant_6", 0x700000000000000000000000000000000#131, 0x600000000000000000000000000000000#131⟩ ]

/-- A word fits a row when its masked bits are the row's. -/
def OpcodeRow.fits (row : OpcodeRow) (w : ReqWord) : Bool := w &&& row.mask == row.pattern

/-- The mnemonic of an instruction (R42, R46). -/
def mnemonic : Instr → String
  | .packVariant1 _ => "pack_variant_1"
  | .packVariant2 _ => "pack_variant_2"
  | .packVariant3 _ => "pack_variant_3"
  | .packVariant4 _ => "pack_variant_4"
  | .packVariant5 _ => "pack_variant_5"
  | .packVariant6 _ => "pack_variant_6"

/-- The request that `nbits` bits of a number write down, bit 0 the least significant bit of `REQ`. A request is 131
bits and nothing else (R45), and the spec says nothing of a word given in another number of bits. DESIGN CHOICE (log 11):
a number that keeps a bit above bit 130 within `nbits` is no request; a word declared with fewer than 131 bits is read as
`REQ` with zeros above it, so that 129 or 130 bits can still write down variants 1 to 3. -/
def requestOfTableWord (nbits w : Nat) : Option Request :=
  let v := w % 2 ^ nbits
  if v < 2 ^ 131 then some (Request.ofWord (BitVec.ofNat 131 v)) else none

/-- The instruction the decoder reads from a table word (none where it refuses). -/
def decodeTableWord (nbits w : Nat) : Option Instr :=
  match requestOfTableWord nbits w with
  | none => none
  | some r =>
    match decode r with
    | .ok i => some i
    | .error _ => none

/-- One hexadecimal digit of the text form (R48). -/
def hexDigit (n : Nat) : Char :=
  ['0', '1', '2', '3', '4', '5', '6', '7', '8', '9', 'A', 'B', 'C', 'D', 'E', 'F'].getD (n % 16) '0'

/-- The last `count` hexadecimal digits of a number, most significant first (R48). -/
def hexDigits : Nat → Nat → List Char
  | 0, _ => []
  | count + 1, n => hexDigits count (n / 16) ++ [hexDigit n]

/-- The operand as 32 hexadecimal digits: the rightmost two are lane 0, the leftmost two lane 15 (R48). -/
def vecText (V : LaneVector) : List Char := hexDigits 32 V.toNat

/-- `REQ` as 33 hexadecimal digits, the leading digit being the select (R48). -/
def reqText (r : Request) : List Char := hexDigits 33 r.toWord.toNat

/-- A request in text: the mnemonic, a space, `0x` and the operand's digits (R48). -/
def requestText (i : Instr) : String := mnemonic i ++ " 0x" ++ String.ofList (vecText i.vec)

/-- A response in text, `-> 0x` and the digits of a port of width `n`: eight of them for `OUT_W = 32` (R48). -/
def responseText {n : Nat} (mask : BitVec n) : String := "-> 0x" ++ String.ofList (hexDigits ((n + 3) / 4) mask.toNat)

end Sys2Proof
end

