-- ==== Sys2Proof/Machine/State.lean ====
section
/-! DEFINITION. The state of a run of the block, as plain data, and the reasons a step ends without a next state. The
block itself has no state (R20 to R23, R28, R29): the fields are the present values on its three ports (R25), the
environment's script and the record of the run (R131), and one counter of the model's own. -/

namespace Sys2Proof.Machine

/-- The reasons a step stops with a fault: none. "No exceptions, no error returns": the table of exception causes is
empty (R110), and a malformed operand raises nothing (R111; log 9). -/
inductive Fault where
  deriving DecidableEq, Repr

/-- The reasons a step has no meaning. -/
inductive Refusal where
  /-- Raised by an arm of `exec` whose instruction has no meaning yet. Safe: nothing can be proved of it. (No arm raises
  it now.) -/
  | notModelled (mnemonic : String)
  /-- Raised by the step when the request's select is 0 or 7 (R44, R112; log 8). Safe: the hardware may drive anything,
  the model refuses the request and with it the whole run. -/
  | reservedSelect (sel : Sel)
  /-- Raised by the step when the environment has no request left to present: a run is a finite sequence of requests
  and there is no other kind of step (R120, R131; log 3). Safe: the model stops. -/
  | noRequest
  deriving DecidableEq, Repr

/-- One evaluation: the pair presented to the block and the value the block then drove on `mask_o` (R25); the
`(request, outcome)` pair of R131. -/
structure Evaluation where
  request : Request
  mask : BitVec Config.outW
  deriving DecidableEq, Repr

/-- The state of a run. -/
structure State where
  /-- The environment's requests still to be presented, the next one at the head (R131). -/
  requests : List Request
  /-- The variant select now on the input port (R25). -/
  sel_i : Sel
  /-- The operand now on the input port (R25). -/
  vec_i : LaneVector
  /-- The value now driven on the output port (R25). -/
  mask_o : BitVec Config.outW
  /-- The evaluations made so far, oldest first (R131). -/
  observed : List Evaluation
  /-- THE MODEL'S OWN: how many undefined results have been drawn (R55 c; log 7). -/
  draws : Nat
  deriving DecidableEq, Repr

/-- Before the first request. The block has no reset and no reset state (R125); what the ports show until a request is
presented is the model's choice (log 5), and no request and no evaluation is there yet. -/
def State.reset : State where
  requests := []
  sel_i := 0
  vec_i := 0
  mask_o := 0
  observed := []
  draws := 0

/-- The request now on the two input ports (R25, R40). -/
def State.presented (s : State) : Request := ⟨s.sel_i, s.vec_i⟩

end Sys2Proof.Machine
end

