-- ==== Sys2Proof/Machine/Ops.lean ====
section
/-! DEFINITION. The named operations on the state of a run: presenting a request, driving a result, drawing an undefined
result, recording an evaluation. There is no register file, no memory and no exception to take (R20, R30, R110, R114), so
there is no operation for them. -/

namespace Sys2Proof.Machine

/-- What a variant makes of an operand: a defined `OUT_W`-bit value, or `undefined` (R50). -/
inductive Result where
  | defined (mask : BitVec Config.outW)
  | undefined
  deriving DecidableEq, Repr

/-- `zext_OUT_W`: the sixteen significant bits, the bits above them zero (R10, R52). -/
def zextOut (m : LaneMask) : BitVec Config.outW := m.setWidth Config.outW

/-- `result <- v`: drive the result port (R11). -/
def State.drive (s : State) (mask : BitVec Config.outW) : State := { s with mask_o := mask }

/-- Drive a drawn value: any `OUT_W`-bit value, under no law, afresh at each evaluation (R55 c, U1; log 7). -/
def State.driveDrawn (s : State) (sel : Sel) (V : LaneVector) : State :=
  { s with mask_o := Config.freeMask s.draws sel V, draws := s.draws + 1 }

/-- Drive what a variant makes of its operand. Both cases go on to a next state: an undefined result is neither
detected nor reported (R55 a, R111). -/
def State.driveResult (s : State) (sel : Sel) (V : LaneVector) : Result → State
  | .defined mask => s.drive mask
  | .undefined => s.driveDrawn sel V

/-- Put the next request on the input ports, both at once (R25, R33). -/
def State.present (s : State) (r : Request) (rest : List Request) : State :=
  { s with requests := rest, sel_i := r.sel, vec_i := r.vec }

/-- Add the evaluation just made, the presented request and the value now driven, to the record of the run (R131). -/
def State.record (s : State) : State :=
  { s with observed := s.observed ++ [⟨s.presented, s.mask_o⟩] }

/-- What follows an instruction's own effect in a step: its evaluation is recorded (R131). -/
def recordNext : Host.Outcome State Fault Refusal → Host.Outcome State Fault Refusal
  | .next s => .next s.record
  | .fault f => .fault f
  | .refused r => .refused r

/-- The refusal that a rejected request ends in (R44, R112). -/
def refusalOf : DecodeError → Refusal
  | .reservedSelect sel => .reservedSelect sel

end Sys2Proof.Machine
end

