-- ==== Sys2Proof/Machine/Primitives.lean ====
section
/-! DEFINITION. The lane-wise primitives of R16 to R19 that the six datapaths are made of. All arithmetic is unsigned and
modulo `2^w`, but for the arithmetic right shift (R15). -/

namespace Sys2Proof.Machine

variable {w : Nat}

/-- `and_w(X, C)`: element-wise AND (R16). -/
def andElems (X C : Elems w) : Elems w := fun j => X j &&& C j

/-- `shr_w(X, s)`: element-wise logical right shift, zeros entering at the top (R16). -/
def shrElems (X : Elems w) (s : Nat) : Elems w := fun j => X j >>> s

/-- `sar_w(X, s)`: element-wise arithmetic right shift, copies of the top bit entering at the top (R16). -/
def sarElems (X : Elems w) (s : Nat) : Elems w := fun j => (X j).sshiftRight s

/-- `vshift_w(X, T)`: element `j` moves left by `T j` if that is not negative, and otherwise right by its magnitude,
logically; bits shifted out are lost (R16). -/
def vshiftElems (X : Elems w) (T : Nat → Int) : Elems w := fun j =>
  if 0 ≤ T j then X j <<< (T j).toNat else X j >>> (-T j).toNat

/-- `paddl_w(X)`: the pairwise widening add, from width `w` to width `2w` (R17). -/
def paddl (X : Elems w) : Elems (2 * w) := fun j =>
  (X (2 * j)).setWidth (2 * w) + (X (2 * j + 1)).setWidth (2 * w)

/-- `padd_w(X)`: the pairwise non-widening add, modulo `2^w` (R17). -/
def padd (X : Elems w) : Elems w := fun j => X (2 * j) + X (2 * j + 1)

/-- `hsum_w(X)` of the first `n` elements, modulo `2^w` (R18). -/
def hsum (X : Elems w) : Nat → BitVec w
  | 0 => 0
  | n + 1 => hsum X n + X n

/-- `sracc_w(x, s) = (x + (x >> s)) mod 2^w`, the shift logical and toward bit 0 (R18, R71). -/
def sracc (x : BitVec w) (s : Nat) : BitVec w := x + (x >>> s)

/-- `zip8(P, Q)`: byte `2j` is `P j` and byte `2j+1` is `Q j` (R19). -/
def zip8 (P Q : Elems 8) : Elems 8 := fun k => if k % 2 = 0 then P (k / 2) else Q (k / 2)

end Sys2Proof.Machine
end

