-- ==== Sys2Proof/Machine/HalfVectorShift.lean ====
section
/-! DEFINITION. Variant 4, the half-vector scalar-shift packer (43_half_vector_shift.md). -/

namespace Sys2Proof.Machine

/-- `m[j] = H[j] & 0x80`, eight bytes (R81). -/
def isolated4 (H : Elems 8) : Elems 8 := andElems H fun _ => signMask

/-- `u = vshift_8(m, SH4)`, eight bytes, each 0 or `2^j` (R81). -/
def placed4 (H : Elems 8) : Elems 8 := vshiftElems (isolated4 H) SH4

/-- `p1 = padd_8(u)`, four bytes (R81). -/
def fold4 (H : Elems 8) : Elems 8 := padd (placed4 H)

/-- `p2 = padd_8(p1)`, two bytes (R81). -/
def fold2 (H : Elems 8) : Elems 8 := padd (fold4 H)

/-- `half_mask(H) = p3 = (p2[0] + p2[1]) mod 256` (R81). -/
def halfMask (H : Elems 8) : Byte := padd (fold2 H) 0

/-- `m16 = (zext_16(hi) << 8) | zext_16(lo)` over the half masks of lanes 8..15 and 0..7 (R80). -/
def packMask4 (V : LaneVector) : LaneMask :=
  ((halfMask (hi8 (lane V))).setWidth 16 <<< 8) ||| (halfMask (lo8 (lane V))).setWidth 16

/-- `pack_variant_4`: defined for every operand (R54, R80). -/
def packVariant4 (V : LaneVector) : Result := .defined (zextOut (packMask4 V))

/-- The meaning of `pack_variant_4` (R80). -/
def execPackVariant4 (V : LaneVector) (s : State) : Host.Outcome State Fault Refusal :=
  .next (s.driveResult 4 V (packVariant4 V))

end Sys2Proof.Machine
end

