-- ==== Sys2Proof/Machine/PairedBitExtract.lean ====
section
/-! DEFINITION. Variant 5, the paired bit-extraction packer (44_paired_bit_extract.md). -/

namespace Sys2Proof.Machine

/-- `w[k] = elem_16(V, k)`, eight words (R91). -/
def words5 (V : LaneVector) : Elems 16 := elem 16 V

/-- `e[k] = w[k] & 0x0180` (R91; bits 7 and 8 of the word, C5). -/
def pairs5 (V : LaneVector) : Elems 16 := andElems (words5 V) fun _ => pairMask

/-- `s = vshift_16(e, OFF5)` (R91). -/
def spread5 (V : LaneVector) : Elems 16 := vshiftElems (pairs5 V) OFF5

/-- `r = hsum_16(s)`, which is the mask (R90, R91). -/
def packMask5 (V : LaneVector) : LaneMask := hsum (spread5 V) 8

/-- `pack_variant_5`: undefined unless `wf(V)` (R55, R90). -/
def packVariant5 (V : LaneVector) : Result :=
  if wf V then .defined (zextOut (packMask5 V)) else .undefined

/-- The meaning of `pack_variant_5` (R90). -/
def execPackVariant5 (V : LaneVector) (s : State) : Host.Outcome State Fault Refusal :=
  .next (s.driveResult 5 V (packVariant5 V))

end Sys2Proof.Machine
end

