-- ==== Sys2Proof/Machine/SignBitTree.lean ====
section
/-! DEFINITION. Variant 3, sign-bit extraction with a doubling reduction tree (42_sign_bit_tree.md). -/

namespace Sys2Proof.Machine

/-- `a[i] = lane(V, i) >> 7`, sixteen lanes, each 0 or 1 (R71). -/
def signBits3 (V : LaneVector) : Elems 8 := shrElems (lane V) signShift

/-- `A`: the 128-bit value whose lane `i` is `a[i]` (R71). -/
def signVec3 (V : LaneVector) : BitVec 128 := assemble 128 (signBits3 V) 16

/-- `p16[j] = sracc_16(elem_16(A, j), 7)`, eight elements (R71; the shift is to the right, C3). -/
def acc16 (V : LaneVector) : Elems 16 := fun j => sracc (elem 16 (signVec3 V) j) stride16

/-- `P16`: the 128-bit value whose 16-bit elements are `p16` (R71). -/
def accVec16 (V : LaneVector) : BitVec 128 := assemble 128 (acc16 V) 8

/-- `p32[j] = sracc_32(elem_32(P16, j), 14)`, four elements (R71). -/
def acc32 (V : LaneVector) : Elems 32 := fun j => sracc (elem 32 (accVec16 V) j) stride32

/-- `P32`: the 128-bit value whose 32-bit elements are `p32` (R71). -/
def accVec32 (V : LaneVector) : BitVec 128 := assemble 128 (acc32 V) 4

/-- `p64[j] = sracc_64(elem_64(P32, j), 28)`, two elements (R71). -/
def acc64 (V : LaneVector) : Elems 64 := fun j => sracc (elem 64 (accVec32 V) j) stride64

/-- `m16 = {hi, lo}`: byte 0 of each 64-bit half (R70, C4). -/
def packMask3 (V : LaneVector) : LaneMask := byte (acc64 V 1) 0 ++ byte (acc64 V 0) 0

/-- `pack_variant_3`: defined for every operand (R54, R70). -/
def packVariant3 (V : LaneVector) : Result := .defined (zextOut (packMask3 V))

/-- The meaning of `pack_variant_3` (R70). -/
def execPackVariant3 (V : LaneVector) (s : State) : Host.Outcome State Fault Refusal :=
  .next (s.driveResult 3 V (packVariant3 V))

end Sys2Proof.Machine
end

