-- ==== Sys2Proof/Machine/SignInterleave.lean ====
section
/-! DEFINITION. Variant 6, the sign-bit interleave packer (45_sign_interleave.md). -/

namespace Sys2Proof.Machine

/-- `f[i] = sar_8(lane(V, i), 7)`, sixteen bytes, each `0x00` or `0xFF` (R101). -/
def filled6 (V : LaneVector) : Elems 8 := sarElems (lane V) signShift

/-- `a[i] = f[i] & WT[i]` (R101). -/
def weighted6 (V : LaneVector) : Elems 8 := andElems (filled6 V) WT

/-- `Z = zip8(lo8(a), hi8(a))` (R101). -/
def zipped6 (V : LaneVector) : Elems 8 := zip8 (lo8 (weighted6 V)) (hi8 (weighted6 V))

/-- `z[j] = elem_16(Z, j)`, the sixteen zipped bytes read as eight words (R101). -/
def words6 (V : LaneVector) : Elems 16 := elem 16 (assemble 128 (zipped6 V) 16)

/-- `r = hsum_16(z)`, which is the mask (R100, R101). -/
def packMask6 (V : LaneVector) : LaneMask := hsum (words6 V) 8

/-- `pack_variant_6`: defined for every operand (R54, R100). -/
def packVariant6 (V : LaneVector) : Result := .defined (zextOut (packMask6 V))

/-- The meaning of `pack_variant_6` (R100). -/
def execPackVariant6 (V : LaneVector) (s : State) : Host.Outcome State Fault Refusal :=
  .next (s.driveResult 6 V (packVariant6 V))

end Sys2Proof.Machine
end

