-- ==== Sys2Proof/Machine/WeightedSum.lean ====
section
/-! DEFINITION. Variants 1 and 2, the weighted-sum packers (41_weighted_sum.md). The two have each their own copy of the
weighting and of the reduction tree in hardware; the stages are one function of the operand, so they are written once. -/

namespace Sys2Proof.Machine

/-- `t[i] = lane(V, i) & WT[i]` (R61): the weighting is a bitwise AND (C1). -/
def weighted (V : LaneVector) : Elems 8 := andElems (lane V) WT

/-- `s16 = paddl_8(t)`, eight elements (R61). -/
def sum16 (V : LaneVector) : Elems 16 := paddl (weighted V)

/-- `s32 = paddl_16(s16)`, four elements (R61). -/
def sum32 (V : LaneVector) : Elems 32 := paddl (sum16 V)

/-- `s64 = paddl_32(s32)`, two elements: the sums of the two 8-lane halves (R61). -/
def sum64 (V : LaneVector) : Elems 64 := paddl (sum32 V)

/-- `m16 = {hi, lo}`: the low bytes of the two sums, concatenated (R60). -/
def packMask1 (V : LaneVector) : LaneMask := byte (sum64 V 1) 0 ++ byte (sum64 V 0) 0

/-- `c = s64[0] + (s64[1] << 8)`, a 64-bit add of a 64-bit shift (R62, C2). -/
def combined2 (V : LaneVector) : BitVec 64 := sum64 V 0 + (sum64 V 1 <<< 8)

/-- `m16 = c[15:0]` (R62). -/
def packMask2 (V : LaneVector) : LaneMask := (combined2 V).extractLsb' 0 16

/-- `pack_variant_1`: undefined unless `wf(V)` (R55, R60). -/
def packVariant1 (V : LaneVector) : Result :=
  if wf V then .defined (zextOut (packMask1 V)) else .undefined

/-- `pack_variant_2`: undefined unless `wf(V)` (R55, R62). -/
def packVariant2 (V : LaneVector) : Result :=
  if wf V then .defined (zextOut (packMask2 V)) else .undefined

/-- The meaning of `pack_variant_1` (R60). -/
def execPackVariant1 (V : LaneVector) (s : State) : Host.Outcome State Fault Refusal :=
  .next (s.driveResult 1 V (packVariant1 V))

/-- The meaning of `pack_variant_2` (R62). -/
def execPackVariant2 (V : LaneVector) (s : State) : Host.Outcome State Fault Refusal :=
  .next (s.driveResult 2 V (packVariant2 V))

end Sys2Proof.Machine
end

