-- ==== Sys2Proof/Machine/Dispatch.lean ====
section
/-! DEFINITION. One arm per instruction, each one call of its meaning. -/

namespace Sys2Proof.Machine

/-- The effect of an instruction: exactly one variant determines each result (R50). -/
def exec (i : Instr) (s : State) : Host.Outcome State Fault Refusal :=
  match i with
  | .packVariant1 V => Sys2Proof.Machine.execPackVariant1 V s
  | .packVariant2 V => Sys2Proof.Machine.execPackVariant2 V s
  | .packVariant3 V => Sys2Proof.Machine.execPackVariant3 V s
  | .packVariant4 V => Sys2Proof.Machine.execPackVariant4 V s
  | .packVariant5 V => Sys2Proof.Machine.execPackVariant5 V s
  | .packVariant6 V => Sys2Proof.Machine.execPackVariant6 V s

end Sys2Proof.Machine
end

