-- ==== Sys2Proof/Machine/Evaluate.lean ====
section
/-! DEFINITION. The evaluation, the block's one kind of step (R25, R120), and the selectable wrapper `pack` (R46, R50). -/

namespace Sys2Proof.Machine

/-- The wrapper of R50, `case sel of`: what the block makes of a request, `none` meaning reserved. It is the contract the
step is held to, written from R50's own table and used by no meaning. -/
def pack (sel : Sel) (V : LaneVector) : Option Result :=
  if sel = 1 then some (packVariant1 V)
  else if sel = 2 then some (packVariant2 V)
  else if sel = 3 then some (packVariant3 V)
  else if sel = 4 then some (packVariant4 V)
  else if sel = 5 then some (packVariant5 V)
  else if sel = 6 then some (packVariant6 V)
  else none

/-- The block answers the request now on its input ports: the select is decoded first, and a reserved one is refused
without a look at the operand (R113); otherwise the chosen variant drives `mask_o`, and the evaluation is recorded
(R25, R50, R131). -/
def evaluate (s : State) : Host.Outcome State Fault Refusal :=
  match decode s.presented with
  | .ok i => recordNext (exec i s)
  | .error e => .refused (refusalOf e)

/-- The environment presents its next request and the block answers it; with no request left there is no step to take
(R120, R131; log 3). -/
def evaluateNext (s : State) : Host.Outcome State Fault Refusal :=
  match s.requests with
  | [] => .refused .noRequest
  | r :: rest => evaluate (s.present r rest)

/-- The environment is about to present a further request, ahead of those it already has; where the word is no request
(R45), it has nothing to present (log 3, log 11). -/
def State.withNextRequest (s : State) : Option Request → State
  | some r => { s with requests := r :: s.requests }
  | none => { s with requests := [] }

end Sys2Proof.Machine
end

