-- ==== Sys2Proof/Machine/Step.lean ====
section
/-! DEFINITION. One step of the machine, and where it takes its next request from. -/

namespace Sys2Proof.Machine

/-- One step: one evaluation (R25, R120). -/
def step (s : State) : Host.Outcome State Fault Refusal := evaluateNext s

/-- `s` with the request that a table word writes down as the very next one the environment presents (log 3). -/
def State.withFetchWord (s : State) (nbits w : Nat) : State :=
  s.withNextRequest (requestOfTableWord nbits w)

end Sys2Proof.Machine
end

