-- ==== Sys2Proof/Safety.lean ====
section
/-! DEFINITION. The terms claims are stated in: the reference mask, the defined domain of a request, what it is for an
evaluation and for a state to be right, and which runs are good. No meaning uses anything of this file. -/

namespace Sys2Proof.Machine

/-- `REF(V)`: bit `i` is the most significant bit of lane `i` (R51). A specification device, not a seventh datapath. -/
def REF (V : LaneVector) : LaneMask := assemble 16 (fun i => BitVec.ofBool (signBit V i)) 16

/-- `V_m`: lane `i` is `0xFF` if bit `i` of `m` is set and `0x00` otherwise (R58 a). -/
def spread (m : LaneMask) : LaneVector :=
  assemble 128 (fun i => if m.getLsbD i then 0xFF#8 else 0x00#8) 16

end Sys2Proof.Machine

namespace Sys2Proof

/-- The request names a variant and its operand lies in that variant's defined domain (R54): the duties (a) and (b) of
R126 are met. -/
def Request.inDomain (r : Request) : Bool :=
  match decode r with
  | .ok i => i.wellFormed
  | .error _ => false

end Sys2Proof

namespace Sys2Proof.Machine

/-- A run is good when it contains no reserved request (R131). -/
def goodRun (requests : List Request) : Prop := ∀ r ∈ requests, r.legal = true

/-- The evaluation answered a defined request with its mask of sign bits, zero-extended (R51, R52). Of an undefined
evaluation nothing is said (R55, R131). -/
def Evaluation.correct (e : Evaluation) : Prop :=
  e.request.inDomain = true → e.mask = zextOut (REF e.request.vec)

/-- What every step keeps. -/
structure State.Inv (s : State) : Prop where
  /-- Every evaluation on record was right, where the spec defines it (R51). -/
  correct : ∀ e ∈ s.observed, e.correct
  /-- No reserved request is ever on record (R44). -/
  legal : ∀ e ∈ s.observed, e.request.legal = true
  /-- "At every instant" the output port is the function of the input ports (R25, R125). -/
  portsAgree : s.presented.inDomain = true → s.mask_o = zextOut (REF s.vec_i)
  /-- The ports show the evaluation last put on record (R25, R131). -/
  portsShowLast : ∀ e, s.observed.getLast? = some e → e = ⟨s.presented, s.mask_o⟩

end Sys2Proof.Machine
end

