-- ==== Sys2Proof/Certificates/Slice0/Obligations.lean ====
section
/-! DEFINITION. The statements for the provers. Each docstring names the rule it formalises; OBLIGATIONS.json lists them. -/

open Sys2Proof Sys2Proof.Machine

-- Encoding: 30_encoding.md.

/-- Decoding the written word of an instruction gives the instruction back, for every operand (R40, R41, R42). -/
def Obligations.DecodeOfEncodedWordIsTheInstruction : Prop :=
  ∀ i : Instr, decodeWord (encodeWord i) = .ok i

/-- Each of the 131-bit words that decodes is the written word of the instruction it decodes to (R40, R42). -/
def Obligations.EncodeOfDecodedWordIsTheWord : Prop :=
  ∀ (w : ReqWord) (i : Instr), decodeWord w = .ok i → encodeWord i = w

/-- The decoder answers "reserved" for exactly the words whose select is 0 or 7, and names that select (R43, R44). -/
def Obligations.ReservedExactlyWhenSelectIsZeroOrSeven : Prop :=
  ∀ w : ReqWord,
    ((w.extractLsb' 128 3 = 0#3 ∨ w.extractLsb' 128 3 = 7#3) →
      decodeWord w = .error (.reservedSelect (w.extractLsb' 128 3))) ∧
    (¬ (w.extractLsb' 128 3 = 0#3 ∨ w.extractLsb' 128 3 = 7#3) → ∃ i, decodeWord w = .ok i)

/-- A word fits a row's match and mask exactly when it decodes to the instruction with that row's mnemonic and the word's
low 128 bits as its operand; the rows are `N << 128` under `0x7 << 128` for `N` in 1..6 (R42). -/
def Obligations.WordFitsARowExactlyWhenItDecodesToIt : Prop :=
  (opcodeRows.map OpcodeRow.mask = List.replicate 6 (7#131 <<< 128)) ∧
  (opcodeRows.map OpcodeRow.pattern = (List.range' 1 6).map fun N => BitVec.ofNat 131 N <<< 128) ∧
  ∀ (w : ReqWord), ∀ row ∈ opcodeRows,
    (row.fits w = true ↔
      ∃ i, decodeWord w = .ok i ∧ mnemonic i = row.mnemonic ∧ i.vec = w.extractLsb' 0 128)

/-- The encoding vectors of 95_test_vectors.md section 2.5, and one word for each of the variants 2 and 4 (Program 1). -/
def Obligations.KnownWordsDecodeAsTheSpecLists : Prop :=
  decodeWord 0x1FF00FF0000FF00FFFFFF00000000FFFF#131 = .ok (.packVariant1 0xFF00FF0000FF00FFFFFF00000000FFFF#128) ∧
  decodeWord 0x2FF00FF0000FF00FFFFFF00000000FFFF#131 = .ok (.packVariant2 0xFF00FF0000FF00FFFFFF00000000FFFF#128) ∧
  decodeWord 0x37EAA55F00F9040813CC3FF00FE017F80#131 = .ok (.packVariant3 0x7EAA55F00F9040813CC3FF00FE017F80#128) ∧
  decodeWord 0x4FF00FF0000FF00FFFFFF00000000FFFF#131 = .ok (.packVariant4 0xFF00FF0000FF00FFFFFF00000000FFFF#128) ∧
  decodeWord 0x5FF0000000000000000000000000000FF#131 = .ok (.packVariant5 0xFF0000000000000000000000000000FF#128) ∧
  decodeWord 0x680808080808080808080808080808080#131 = .ok (.packVariant6 0x80808080808080808080808080808080#128) ∧
  decodeWord 0x0FFFFFFFFFFFFFFFFFFFFFFFFFFFFFFFF#131 = .error (.reservedSelect 0) ∧
  decodeWord 0x7FFFFFFFFFFFFFFFFFFFFFFFFFFFFFFFF#131 = .error (.reservedSelect 7)

/-- A table word of 131 bits or more that is an instruction's written word decodes to it (R40, R45); a number with a bit
above bit 130 within its width is no request (the model's reading, log 11). -/
def Obligations.TableWordDecodesAsTheWrittenWord : Prop :=
  (∀ (i : Instr) (nbits : Nat), 131 ≤ nbits → decodeTableWord nbits (encodeWord i).toNat = some i) ∧
  (∀ nbits w : Nat, 2 ^ 131 ≤ w % 2 ^ nbits → decodeTableWord nbits w = none)

/-- The classes of the six variants (R53). -/
def Obligations.CapabilityClassesOfTheVariants : Prop :=
  ∀ V : LaneVector,
    (Instr.packVariant1 V).capability = .strictBooleanLanePacker ∧
    (Instr.packVariant2 V).capability = .strictBooleanLanePacker ∧
    (Instr.packVariant5 V).capability = .strictBooleanLanePacker ∧
    (Instr.packVariant3 V).capability = .signBitPacker ∧
    (Instr.packVariant4 V).capability = .signBitPacker ∧
    (Instr.packVariant6 V).capability = .signBitPacker

-- The operand and its views: 00_scope.md, 20_memory.md.

/-- Bit `j` of lane `i` is bit `8i + j` of the operand (R12). -/
def Obligations.LaneIsItsEightOperandBits : Prop :=
  ∀ (V : LaneVector) (i j : Nat), i < 16 → j < 8 → (lane V i).getLsbD j = V.getLsbD (8 * i + j)

/-- Element `j` of width `w` is bits `w*j+w-1` to `w*j`; wider elements nest little-endian, each holding the narrower
element `2k` low and `2k+1` high, and the two 64-bit elements hold lanes 0..7 and 8..15 (R13). -/
def Obligations.ElementsNestLittleEndian : Prop :=
  ∀ V : LaneVector,
    (∀ w j b, b < w → (elem w V j).getLsbD b = V.getLsbD (w * j + b)) ∧
    (∀ k, k < 8 → elem 16 V k = lane V (2 * k + 1) ++ lane V (2 * k)) ∧
    (∀ k, k < 4 → elem 32 V k = elem 16 V (2 * k + 1) ++ elem 16 V (2 * k)) ∧
    (∀ k, k < 2 → elem 64 V k = elem 32 V (2 * k + 1) ++ elem 32 V (2 * k)) ∧
    (∀ j, j < 8 → byte (elem 64 V 0) j = lane V j ∧ byte (elem 64 V 1) j = lane V (8 + j))

/-- An operand is its list of sixteen lanes, and a list of another length is no operand (R31, R32). -/
def Obligations.OperandIsItsSixteenLanes : Prop :=
  (∀ V : LaneVector, vecOfLanes (lanesOf V) = some V) ∧
  (∀ bytes : List Byte, bytes.length = 16 → ∃ V, vecOfLanes bytes = some V ∧ lanesOf V = bytes) ∧
  (∀ bytes : List Byte, bytes.length ≠ 16 → vecOfLanes bytes = none)

/-- The well-formed operands are exactly the `V_m`, one for each of the `2^16` masks, and `REF(V_m) = m` (R14, R58). -/
def Obligations.WellFormedOperandsAreTheSpreadMasks : Prop :=
  (∀ V : LaneVector, wf V = true ↔ ∃ m, V = spread m) ∧
  (∀ m m' : LaneMask, spread m = spread m' → m = m') ∧
  (∀ m : LaneMask, REF (spread m) = m)

/-- Well-formedness says of each of the sixteen lanes that it is `0x00` or `0xFF`, and then every bit of a lane is its
sign bit, set exactly when the lane is `0xFF` (R14). -/
def Obligations.WellFormedLanesAreAllZerosOrAllOnes : Prop :=
  ∀ V : LaneVector,
    (wf V = true ↔ ∀ i, i < 16 → lane V i = 0x00#8 ∨ lane V i = 0xFF#8) ∧
    (wf V = true → ∀ i, i < 16 → (signBit V i = true ↔ lane V i = 0xFF#8) ∧
      ∀ j, j < 8 → (lane V i).getLsbD j = signBit V i)

-- The primitives and the constants: 00_scope.md R16 to R19, and the variants' files.

/-- The shifts and the AND bit by bit: logical shifts take in zeros, the arithmetic shift takes in the top bit (by 7 on a
byte: `0xFF` or `0x00`), a table shift goes left by a non-negative entry and right by a negative one's magnitude, and bits
shifted out are lost (R16). -/
def Obligations.ShiftPrimitivesMoveTheseBits : Prop :=
  (∀ (X : Elems 8) (j : Nat), sarElems X 7 j = if (X j).getLsbD 7 then 0xFF#8 else 0x00#8) ∧
  ∀ (w : Nat) (X C : Elems w) (T : Nat → Int) (s j b : Nat), b < w →
    (andElems X C j).getLsbD b = ((X j).getLsbD b && (C j).getLsbD b) ∧
    (shrElems X s j).getLsbD b = (decide (b + s < w) && (X j).getLsbD (b + s)) ∧
    (sarElems X s j).getLsbD b = (if b + s < w then (X j).getLsbD (b + s) else (X j).getLsbD (w - 1)) ∧
    (0 ≤ T j → (vshiftElems X T j).getLsbD b =
      (decide ((T j).toNat ≤ b) && (X j).getLsbD (b - (T j).toNat))) ∧
    (T j < 0 → (vshiftElems X T j).getLsbD b =
      (decide (b + (-T j).toNat < w) && (X j).getLsbD (b + (-T j).toNat)))

/-- The widening pairwise add is the exact sum, at most `2^(w+1) - 2`, and the non-widening one is the sum modulo `2^w`
(R17). -/
def Obligations.PairwiseAddsAreExactAndModular : Prop :=
  ∀ (w : Nat) (X : Elems w) (j : Nat), 0 < w →
    (paddl X j).toNat = (X (2 * j)).toNat + (X (2 * j + 1)).toNat ∧
    (paddl X j).toNat ≤ 2 ^ (w + 1) - 2 ∧
    (padd X j).toNat = ((X (2 * j)).toNat + (X (2 * j + 1)).toNat) % 2 ^ w

/-- The horizontal sum is the sum of the elements modulo `2^w`, in whatever order they are taken, and the
shift-accumulate step adds the value shifted toward bit 0 (R18). -/
def Obligations.HorizontalSumIsTheModularSumInAnyOrder : Prop :=
  (∀ (w : Nat) (X : Elems w) (n : Nat),
    (hsum X n).toNat = (((List.range n).map fun j => (X j).toNat).sum) % 2 ^ w) ∧
  (∀ (w : Nat) (X : Elems w) (n : Nat) (order : List Nat), order.Perm (List.range n) →
    hsum X n = (order.map X).sum) ∧
  (∀ (w : Nat) (x : BitVec w) (s : Nat), (sracc x s).toNat = (x.toNat + x.toNat / 2 ^ s) % 2 ^ w)

/-- Byte, half and zip: byte `k` is bits `8k+7` to `8k`, and word `j` of the zipped bytes is `{Q[j], P[j]}` (R19). -/
def Obligations.ZippedWordsPairTheTwoHalves : Prop :=
  (∀ (n : Nat) (X : BitVec n) (k b : Nat), b < 8 → (byte X k).getLsbD b = X.getLsbD (8 * k + b)) ∧
  ∀ (P Q A : Elems 8) (j : Nat), j < 8 →
    zip8 P Q (2 * j) = P j ∧ zip8 P Q (2 * j + 1) = Q j ∧
    elem 16 (assemble 128 (zip8 P Q) 16) j = Q j ++ P j ∧
    hi8 A j = A (8 + j) ∧ lo8 A j = A j

/-- The tables' entries: `WT[i] = 2^(i mod 8)`, `SH4[j] = j - 7`, `OFF5[k] = 2k - 7` (R61, R81, R91). -/
def Obligations.ConstantTablesHoldTheirClosedForms : Prop :=
  (∀ i, i < 16 → (WT i).toNat = 2 ^ (i % 8)) ∧
  (∀ j : Nat, j < 8 → SH4 j = (j : Int) - 7) ∧
  (∀ k : Nat, k < 8 → OFF5 k = 2 * (k : Int) - 7)

-- What the stages hold: the bounds rules.

/-- The weighted sums are the exact sums of their eight lanes' weights and never leave their low byte; on a well-formed
operand a lane adds its weight or nothing, and the sums are the two bytes of `REF` (R63). -/
def Obligations.WeightedSumsAreTheBytesOfTheMask : Prop :=
  ∀ V : LaneVector,
    (∀ i, i < 16 → (weighted V i).toNat ≤ (WT i).toNat) ∧
    (∀ h, h < 2 → (sum64 V h).toNat = ((List.range 8).map fun j => (weighted V (8 * h + j)).toNat).sum ∧
      (sum64 V h).toNat ≤ 255 ∧ ∀ b, 8 ≤ b → (sum64 V h).getLsbD b = false) ∧
    (wf V = true →
      (∀ i, i < 16 → weighted V i = if lane V i = 0xFF#8 then WT i else 0#8) ∧
      sum64 V 0 = ((REF V).extractLsb' 0 8).setWidth 64 ∧
      sum64 V 1 = ((REF V).extractLsb' 8 8).setWidth 64)

/-- On every operand, well formed or not, the datapaths of variants 1 and 2 give the same sixteen bits (R62's corner
case: the combining add has no carry and equals the bitwise OR). -/
def Obligations.TheTwoWeightedSumCombinesAgreeOnEveryOperand : Prop :=
  ∀ V : LaneVector, packMask1 V = packMask2 V ∧ combined2 V = (sum64 V 0 ||| (sum64 V 1 <<< 8))

/-- In the doubling tree no addition carries, the stages stay below the values of R72, and the low byte of each 64-bit
element holds the half's eight sign bits in order, for every operand (R72). -/
def Obligations.DoublingTreeGathersTheSignBits : Prop :=
  ∀ V : LaneVector,
    (∀ j, j < 8 → elem 16 (signVec3 V) j &&& (elem 16 (signVec3 V) j >>> 7) = 0 ∧ (acc16 V j).toNat ≤ 0x0103) ∧
    (∀ j, j < 4 → elem 32 (accVec16 V) j &&& (elem 32 (accVec16 V) j >>> 14) = 0 ∧ (acc32 V j).toNat ≤ 0x0103050F) ∧
    (∀ h, h < 2 → elem 64 (accVec32 V) h &&& (elem 64 (accVec32 V) h >>> 28) = 0 ∧
      (acc64 V h).toNat ≤ 0x0103050F113355FF ∧ byte (acc64 V h) 0 = (REF V).extractLsb' (8 * h) 8)

/-- The half mask of any eight bytes holds their sign bits in order; none of its adds wraps, and each equals a bitwise OR
(R82). -/
def Obligations.HalfMaskHoldsTheSignBitsOfItsHalf : Prop :=
  ∀ H : Elems 8,
    (∀ j, j < 8 → (placed4 H j).toNat = (if (H j).getLsbD 7 then 2 ^ j else 0)) ∧
    (∀ j, j < 4 → (fold4 H j).toNat = (placed4 H (2 * j)).toNat + (placed4 H (2 * j + 1)).toNat ∧
      fold4 H j = placed4 H (2 * j) ||| placed4 H (2 * j + 1)) ∧
    (∀ j, j < 2 → (fold2 H j).toNat = (fold4 H (2 * j)).toNat + (fold4 H (2 * j + 1)).toNat ∧
      fold2 H j = fold4 H (2 * j) ||| fold4 H (2 * j + 1)) ∧
    (halfMask H).toNat = (fold2 H 0).toNat + (fold2 H 1).toNat ∧ halfMask H = fold2 H 0 ||| fold2 H 1 ∧
    (∀ j, j < 8 → (halfMask H).getLsbD j = (H j).getLsbD 7)

/-- On every operand word `k` of variant 5 has at most bits `2k` and `2k+1` after its shift, the sum neither carries nor
wraps and holds bit 7 of each even lane and bit 0 of each odd lane; on a well-formed operand it is `REF(V)` (R92). -/
def Obligations.PairedBitsLandAtTheirMaskPositions : Prop :=
  ∀ V : LaneVector,
    (∀ k b, k < 8 → (pairs5 V k).getLsbD b = true → b = 7 ∨ b = 8) ∧
    (∀ k b, k < 8 → (spread5 V k).getLsbD b = true → b = 2 * k ∨ b = 2 * k + 1) ∧
    (packMask5 V).toNat = ((List.range 8).map fun k => (spread5 V k).toNat).sum ∧
    (∀ k, k < 8 → (packMask5 V).getLsbD (2 * k) = (lane V (2 * k)).getLsbD 7 ∧
      (packMask5 V).getLsbD (2 * k + 1) = (lane V (2 * k + 1)).getLsbD 0) ∧
    (wf V = true → packMask5 V = REF V)

/-- Word `j` of variant 6 has at most bits `j` and `8 + j`, the sign bits of lanes `j` and `8 + j`, and their sum
neither carries nor wraps and is `REF(V)` for every operand (R102). -/
def Obligations.InterleavedWordsSumToTheMask : Prop :=
  ∀ V : LaneVector,
    (∀ j, j < 8 → (words6 V j).toNat =
      2 ^ j * (signBit V j).toNat + 2 ^ (8 + j) * (signBit V (8 + j)).toNat) ∧
    (packMask6 V).toNat = ((List.range 8).map fun j => (words6 V j).toNat).sum ∧ packMask6 V = REF V

-- The six instructions: result and completion.

/-- On a well-formed operand `pack_variant_1` completes and drives the zero-extended mask of sign bits, changing nothing
else (R60). -/
def Obligations.PackVariant1DrivesTheMaskOfAWellFormedOperand : Prop :=
  ∀ (V : LaneVector) (s : State), wf V = true →
    exec (.packVariant1 V) s = .next { s with mask_o := zextOut (REF V) }

/-- The same of `pack_variant_2` (R62). -/
def Obligations.PackVariant2DrivesTheMaskOfAWellFormedOperand : Prop :=
  ∀ (V : LaneVector) (s : State), wf V = true →
    exec (.packVariant2 V) s = .next { s with mask_o := zextOut (REF V) }

/-- For any operand `pack_variant_3` completes and drives the zero-extended mask of sign bits, changing nothing else
(R70). -/
def Obligations.PackVariant3DrivesTheMaskOfAnyOperand : Prop :=
  ∀ (V : LaneVector) (s : State), exec (.packVariant3 V) s = .next { s with mask_o := zextOut (REF V) }

/-- The same of `pack_variant_4` (R80). -/
def Obligations.PackVariant4DrivesTheMaskOfAnyOperand : Prop :=
  ∀ (V : LaneVector) (s : State), exec (.packVariant4 V) s = .next { s with mask_o := zextOut (REF V) }

/-- On a well-formed operand `pack_variant_5` completes and drives the zero-extended mask of sign bits, changing nothing
else (R90). -/
def Obligations.PackVariant5DrivesTheMaskOfAWellFormedOperand : Prop :=
  ∀ (V : LaneVector) (s : State), wf V = true →
    exec (.packVariant5 V) s = .next { s with mask_o := zextOut (REF V) }

/-- For any operand `pack_variant_6` completes and drives the zero-extended mask of sign bits, changing nothing else
(R100). -/
def Obligations.PackVariant6DrivesTheMaskOfAnyOperand : Prop :=
  ∀ (V : LaneVector) (s : State), exec (.packVariant6 V) s = .next { s with mask_o := zextOut (REF V) }

/-- A strict variant given a malformed operand goes on to a next state: some value is driven, one draw is counted, and
nothing else changes (R55 a, R55 d, R111). Of the value nothing is said; the count is the model's own (log 7). -/
def Obligations.StrictVariantsGoOnWhenTheOperandIsMalformed : Prop :=
  ∀ (V : LaneVector) (s : State) (i : Instr), wf V = false →
    i = .packVariant1 V ∨ i = .packVariant2 V ∨ i = .packVariant5 V →
    ∃ mask, exec i s = .next { s with mask_o := mask, draws := s.draws + 1 }

/-- The contract of every variant: on its defined domain it drives `zext(REF(V))`, where bit `i` of `REF(V)` is the most
significant bit of lane `i`, which on a well-formed operand is set exactly when the lane is `0xFF` (R51, R54). -/
def Obligations.EveryVariantMeetsTheContractOnItsDomain : Prop :=
  (∀ (V : LaneVector) (i : Nat), i < 16 → (REF V).getLsbD i = (lane V i).getLsbD 7) ∧
  (∀ (V : LaneVector) (i : Nat), wf V = true → i < 16 → ((REF V).getLsbD i = true ↔ lane V i = 0xFF#8)) ∧
  (∀ (V : LaneVector) (i : Instr), i.vec = V → (i.capability = .signBitPacker ∨ wf V = true) →
    ∀ s : State, ∃ t, exec i s = .next t ∧ t.mask_o = zextOut (REF V))

/-- A defined result is the 16-bit mask zero-extended to the port, whatever the port's width (R52). -/
def Obligations.DefinedResultHasZerosAboveItsSixteenBits : Prop :=
  ∀ (i : Instr) (s : State), i.wellFormed = true → ∃ t, exec i s = .next t ∧
    t.mask_o.extractLsb' 0 16 = REF i.vec ∧
    (∀ b, 16 ≤ b → t.mask_o.getLsbD b = false) ∧ t.mask_o.toNat < 2 ^ 16

/-- On a well-formed operand all six variants answer alike, and on any operand the three sign-bit variants do (R57). -/
def Obligations.VariantsAgreeWhereTheyAreDefined : Prop :=
  ∀ (i j : Instr) (s : State), i.vec = j.vec →
    (wf i.vec = true ∨ (i.capability = .signBitPacker ∧ j.capability = .signBitPacker)) →
    exec i s = exec j s ∧ ∃ t, exec i s = .next t ∧ t.mask_o = zextOut (REF i.vec)

/-- Round trip, the all-zero, the all-ones and the single-lane operands, for every variant (R58). -/
def Obligations.EveryVariantReturnsTheMaskThatWasSpread : Prop :=
  (∀ (i : Instr) (m : LaneMask) (s : State), i.vec = spread m →
    ∃ t, exec i s = .next t ∧ t.mask_o = zextOut m) ∧
  (∀ (i : Instr) (s : State), i.vec = 0#128 → ∃ t, exec i s = .next t ∧ t.mask_o = zextOut 0x0000#16) ∧
  (∀ (i : Instr) (s : State), i.vec = BitVec.allOnes 128 →
    ∃ t, exec i s = .next t ∧ t.mask_o = zextOut 0xFFFF#16) ∧
  (∀ (i : Instr) (k : Nat) (s : State), k < 16 → i.vec = 0xFF#128 <<< (8 * k) →
    ∃ t, exec i s = .next t ∧ t.mask_o = zextOut (1#16 <<< k))

/-- The frame of the six instructions: only the output port and the model's own draw counter may change, and the counter
only where the result is undefined; there is no register, flag or memory to change (R20, R22, R30, R56). -/
def Obligations.EveryVariantLeavesAllButTheOutputPort : Prop :=
  ∀ (i : Instr) (s t : State), exec i s = .next t →
    t.requests = s.requests ∧ t.sel_i = s.sel_i ∧ t.vec_i = s.vec_i ∧ t.observed = s.observed ∧
    t.draws = if i.wellFormed then s.draws else s.draws + 1

/-- No request raises an exception, in an instruction or in a step, and the table of causes is empty (R110). -/
def Obligations.NoRequestRaisesAnException : Prop :=
  (∀ (i : Instr) (s : State), ∃ t, exec i s = .next t) ∧ (∀ (s : State) (f : Fault), step s ≠ .fault f) ∧
  IsEmpty Fault

-- The step.

/-- A step presents the next request and, when it decodes to `i`, is `exec i` at that state with the evaluation then put
on record (R25, R50). -/
def Obligations.StepRunsTheDecodedInstruction : Prop :=
  ∀ (s : State) (r : Request) (rest : List Request) (i : Instr), s.requests = r :: rest → decode r = .ok i →
    step s = recordNext (exec i { s with requests := rest, sel_i := r.sel, vec_i := r.vec })

/-- A request whose select is 0 or 7 is refused by name, whatever its operand: the select is decoded first (R112, R113). -/
def Obligations.StepRefusesAReservedSelectWhateverTheOperand : Prop :=
  ∀ (s : State) (r : Request) (rest : List Request), s.requests = r :: rest → r.sel = 0#3 ∨ r.sel = 7#3 →
    step s = .refused (.reservedSelect r.sel)

/-- With no request to present there is no step to take (the model's reading of R120 and R131, log 3); from reset, where
no request is placed, the first step is of this kind. -/
def Obligations.StepWithNoRequestIsRefused : Prop :=
  (∀ s : State, s.requests = [] → step s = .refused .noRequest) ∧ step State.reset = .refused .noRequest

/-- Before the first request nothing has been presented or observed and nothing drawn; the zeros on the ports are the
model's choice (log 5). -/
def Obligations.ResetHoldsNoRequestAndNoEvaluation : Prop :=
  State.reset.requests = [] ∧ State.reset.observed = [] ∧ State.reset.draws = 0 ∧
  State.reset.sel_i = 0 ∧ State.reset.vec_i = 0 ∧ State.reset.mask_o = 0

/-- A table word placed for the next fetch is the request the next step answers, when it decodes (log 3, log 11). -/
def Obligations.StepRunsThePlacedTableWord : Prop :=
  ∀ (s : State) (nbits w : Nat) (i : Instr), decodeTableWord nbits w = some i →
    step (s.withFetchWord nbits w) =
      recordNext (exec i { s with sel_i := (encode i).sel, vec_i := i.vec })

/-- The step drives what the wrapper `pack` of R50 makes of the request: a defined result as it stands, some value for an
undefined one, and a refusal for a reserved request. `undefined` is the outcome of variants 1, 2 and 5 on malformed
operands alone, `reserved` that of the selects 0 and 7 alone (R50). THE MODEL'S CHOICES, of which R50 says nothing: the
request leaves the script (log 2), the evaluation is put on record (log 4), and an undefined result advances the draw
counter (log 7). -/
def Obligations.StepAnswersAsPackDoes : Prop :=
  (∀ (sel : Sel) (V : LaneVector), pack sel V = some .undefined ↔ (sel = 1 ∨ sel = 2 ∨ sel = 5) ∧ wf V = false) ∧
  (∀ (sel : Sel) (V : LaneVector), pack sel V = none ↔ sel = 0 ∨ sel = 7) ∧
  ∀ (s : State) (r : Request) (rest : List Request), s.requests = r :: rest →
    (∀ mask, pack r.sel r.vec = some (.defined mask) →
      step s = .next { s with requests := rest, sel_i := r.sel, vec_i := r.vec, mask_o := mask,
                              observed := s.observed ++ [⟨r, mask⟩] }) ∧
    (pack r.sel r.vec = some .undefined →
      ∃ mask, step s = .next { s with requests := rest, sel_i := r.sel, vec_i := r.vec, mask_o := mask,
                                      observed := s.observed ++ [⟨r, mask⟩], draws := s.draws + 1 }) ∧
    (pack r.sel r.vec = none → step s = .refused (.reservedSelect r.sel))

/-- What a step changes: the next request leaves the script and stands on the input ports, one evaluation is added to the
record, and the draw counter moves only for an undefined result (R25, R131). -/
def Obligations.StepConsumesOneRequestAndRecordsOneEvaluation : Prop :=
  ∀ s t : State, step s = .next t → ∃ r, s.requests = r :: t.requests ∧ t.presented = r ∧ r.legal = true ∧
    t.observed = s.observed ++ [⟨r, t.mask_o⟩] ∧
    t.draws = if r.inDomain then s.draws else s.draws + 1

/-- The result of a defined evaluation depends on its own request and on nothing else of the state (R29, R36). -/
def Obligations.DefinedResultDependsOnItsRequestAlone : Prop :=
  ∀ (s t : State) (r : Request) (ss ts : List Request), r.inDomain = true →
    s.requests = r :: ss → t.requests = r :: ts →
    ∃ s' t', step s = .next s' ∧ step t = .next t' ∧ s'.mask_o = t'.mask_o

/-- Two defined evaluations commute: made in either order they give the same two (request, outcome) pairs (R36 a). -/
def Obligations.DefinedEvaluationsCommute : Prop :=
  ∀ (s t : State) (a b : Request) (rest : List Request),
    a.inDomain = true → b.inDomain = true →
    s.requests = a :: b :: rest → t = { s with requests := b :: a :: rest } →
    ∃ s' t' ea eb, core.run 2 s = .next s' ∧ core.run 2 t = .next t' ∧
      ea.request = a ∧ eb.request = b ∧
      s'.observed = s.observed ++ [ea, eb] ∧ t'.observed = s.observed ++ [eb, ea] ∧
      s'.draws = s.draws ∧ t'.draws = s.draws

/-- Presenting the same defined request twice gives the same value twice (R33, R56). -/
def Obligations.RepeatedDefinedEvaluationsAgree : Prop :=
  ∀ (s : State) (r : Request) (rest : List Request), r.inDomain = true → s.requests = r :: r :: rest →
    ∃ t e, core.run 2 s = .next t ∧ t.observed = s.observed ++ [e, e] ∧ e.request = r

/-- An undefined outcome leaves nothing behind: whatever legal request went before, a defined one is answered as if it
were alone (R55 d). -/
def Obligations.UndefinedOutcomeLeavesNothingBehind : Prop :=
  ∀ (s : State) (u r : Request) (rest : List Request), u.legal = true → r.inDomain = true →
    s.requests = u :: r :: rest → ∃ t, core.run 2 s = .next t ∧ t.mask_o = zextOut (REF r.vec)

-- Whole runs.

/-- The invariant holds before the first request. -/
def Obligations.InvariantHoldsAtReset : Prop := State.reset.Inv

/-- Every step keeps the invariant, from every state that has it: every defined evaluation on record is the mask of sign
bits, no reserved request is on record, and at every instant the output port is the function of the input ports (R51,
R125, R131). -/
def Obligations.StepKeepsTheInvariant : Prop :=
  ∀ s t : State, s.Inv → step s = .next t → t.Inv

/-- A good run answers each of its requests, in order, with one outcome, and every defined outcome is right (R131). -/
def Obligations.GoodRunAnswersEveryRequest : Prop :=
  ∀ (rs rest : List Request) (s : State), goodRun rs → s.requests = rs ++ rest →
    ∃ t es, core.run rs.length s = .next t ∧ t.requests = rest ∧ t.observed = s.observed ++ es ∧
      es.map Evaluation.request = rs ∧ ∀ e ∈ es, e.correct

/-- A run that reaches a reserved request is refused there, and stays refused however long it is continued (R44, R131). -/
def Obligations.RunWithAReservedRequestStaysRefused : Prop :=
  ∀ (rs rest : List Request) (r : Request) (s : State) (k : Nat), goodRun rs → r.legal = false →
    s.requests = rs ++ r :: rest → core.run (rs.length + 1 + k) s = .refused (Refusal.reservedSelect r.sel)
end

