-- ==== Sys2Proof/Laws/State.lean ====
section
/-! SUPPORT. What each named operation on the state does to each field: the lemmas later proofs rewrite with, instead of
unfolding a record update. -/

namespace Sys2Proof.Machine

section
variable (s : State) (mask : BitVec Config.outW) (sel : Sel) (V : LaneVector) (r : Request) (rest : List Request)

@[simp] theorem State.drive_requests : (s.drive mask).requests = s.requests := rfl
@[simp] theorem State.drive_sel_i : (s.drive mask).sel_i = s.sel_i := rfl
@[simp] theorem State.drive_vec_i : (s.drive mask).vec_i = s.vec_i := rfl
@[simp] theorem State.drive_mask_o : (s.drive mask).mask_o = mask := rfl
@[simp] theorem State.drive_observed : (s.drive mask).observed = s.observed := rfl
@[simp] theorem State.drive_draws : (s.drive mask).draws = s.draws := rfl
@[simp] theorem State.drive_presented : (s.drive mask).presented = s.presented := rfl

@[simp] theorem State.driveDrawn_requests : (s.driveDrawn sel V).requests = s.requests := rfl
@[simp] theorem State.driveDrawn_sel_i : (s.driveDrawn sel V).sel_i = s.sel_i := rfl
@[simp] theorem State.driveDrawn_vec_i : (s.driveDrawn sel V).vec_i = s.vec_i := rfl
@[simp] theorem State.driveDrawn_observed : (s.driveDrawn sel V).observed = s.observed := rfl
@[simp] theorem State.driveDrawn_draws : (s.driveDrawn sel V).draws = s.draws + 1 := rfl
@[simp] theorem State.driveDrawn_presented : (s.driveDrawn sel V).presented = s.presented := rfl

@[simp] theorem State.driveResult_defined : s.driveResult sel V (.defined mask) = s.drive mask := rfl
@[simp] theorem State.driveResult_undefined : s.driveResult sel V .undefined = s.driveDrawn sel V := rfl

@[simp] theorem State.present_requests : (s.present r rest).requests = rest := rfl
@[simp] theorem State.present_sel_i : (s.present r rest).sel_i = r.sel := rfl
@[simp] theorem State.present_vec_i : (s.present r rest).vec_i = r.vec := rfl
@[simp] theorem State.present_mask_o : (s.present r rest).mask_o = s.mask_o := rfl
@[simp] theorem State.present_observed : (s.present r rest).observed = s.observed := rfl
@[simp] theorem State.present_draws : (s.present r rest).draws = s.draws := rfl
@[simp] theorem State.present_presented : (s.present r rest).presented = r := rfl

@[simp] theorem State.record_requests : s.record.requests = s.requests := rfl
@[simp] theorem State.record_sel_i : s.record.sel_i = s.sel_i := rfl
@[simp] theorem State.record_vec_i : s.record.vec_i = s.vec_i := rfl
@[simp] theorem State.record_mask_o : s.record.mask_o = s.mask_o := rfl
@[simp] theorem State.record_draws : s.record.draws = s.draws := rfl
@[simp] theorem State.record_presented : s.record.presented = s.presented := rfl
@[simp] theorem State.record_observed :
    s.record.observed = s.observed ++ [⟨s.presented, s.mask_o⟩] := rfl

@[simp] theorem State.withNextRequest_some :
    s.withNextRequest (some r) = { s with requests := r :: s.requests } := rfl
@[simp] theorem State.withNextRequest_none :
    s.withNextRequest none = { s with requests := [] } := rfl

@[simp] theorem recordNext_next : recordNext (.next s) = .next s.record := rfl
@[simp] theorem recordNext_refused (e : Refusal) : recordNext (.refused e) = .refused e := rfl

end

/-- Driving a variant's result is driving some value, and counts a draw exactly when the result is undefined. -/
theorem State.driveResult_cases (s : State) (sel : Sel) (V : LaneVector) (res : Result) :
    (∃ mask, res = .defined mask ∧ s.driveResult sel V res = { s with mask_o := mask }) ∨
    (res = .undefined ∧ ∃ mask, s.driveResult sel V res = { s with mask_o := mask, draws := s.draws + 1 }) := by
  cases res with
  | defined mask => exact .inl ⟨mask, rfl, rfl⟩
  | undefined => exact .inr ⟨rfl, Config.freeMask s.draws sel V, rfl⟩

end Sys2Proof.Machine
end

