-- ==== Sys2Proof/Laws/Machine.lean ====
section
/-! SUPPORT. What decoding, an instruction, an evaluation and a step can do, each said once. -/

namespace Sys2Proof

/-- A select is one of its eight values. -/
theorem sel_cases (x : Sel) :
    x = 0#3 ∨ x = 1#3 ∨ x = 2#3 ∨ x = 3#3 ∨ x = 4#3 ∨ x = 5#3 ∨ x = 6#3 ∨ x = 7#3 := by
  revert x; decide

/-- Everything decoding can answer: an instruction whose request it is, or a refusal of a reserved select. -/
theorem decode_cases (r : Request) :
    (∃ i, decode r = .ok i ∧ encode i = r ∧ r.legal = true) ∨
    (decode r = .error (.reservedSelect r.sel) ∧ r.legal = false) := by
  obtain ⟨sel, V⟩ := r
  rcases sel_cases sel with rfl | rfl | rfl | rfl | rfl | rfl | rfl | rfl
  · exact .inr ⟨rfl, rfl⟩
  · exact .inl ⟨.packVariant1 V, rfl, rfl, rfl⟩
  · exact .inl ⟨.packVariant2 V, rfl, rfl, rfl⟩
  · exact .inl ⟨.packVariant3 V, rfl, rfl, rfl⟩
  · exact .inl ⟨.packVariant4 V, rfl, rfl, rfl⟩
  · exact .inl ⟨.packVariant5 V, rfl, rfl, rfl⟩
  · exact .inl ⟨.packVariant6 V, rfl, rfl, rfl⟩
  · exact .inr ⟨rfl, rfl⟩

/-- The operand of an instruction is the operand of its request. -/
theorem encode_vec (i : Instr) : (encode i).vec = i.vec := by
  cases i <;> rfl

/-- Reading the two fields back from a written word (R40). -/
theorem Request.ofWord_toWord (r : Request) : Request.ofWord r.toWord = r := by
  obtain ⟨sel, V⟩ := r
  have hs : (sel ++ V).extractLsb' 128 3 = sel := by
    apply BitVec.eq_of_getLsbD_eq
    intro b hb
    rw [BitVec.getLsbD_extractLsb', BitVec.getLsbD_append]
    simp only [hb, decide_true, Bool.true_and, Nat.not_lt.mpr (Nat.le_add_right 128 b), if_false,
      Nat.add_sub_cancel_left]
  have hv : (sel ++ V).extractLsb' 0 128 = V := by
    apply BitVec.eq_of_getLsbD_eq
    intro b hb
    rw [BitVec.getLsbD_extractLsb', BitVec.getLsbD_append]
    simp only [hb, decide_true, Bool.true_and, Nat.zero_add, if_true]
  simp only [Request.ofWord, Request.toWord, hs, hv]

/-- Writing down the two fields of a word gives the word (R40). -/
theorem Request.toWord_ofWord (w : ReqWord) : (Request.ofWord w).toWord = w := by
  apply BitVec.eq_of_getLsbD_eq
  intro b hb
  simp only [Request.toWord, Request.ofWord, BitVec.getLsbD_append, BitVec.getLsbD_extractLsb']
  by_cases h : b < 128
  · simp [h]
  · have h1 : b - 128 < 3 := by omega
    have h2 : 128 + (b - 128) = b := by omega
    simp [h, h1, h2]

end Sys2Proof

namespace Sys2Proof.Machine

/-- What each variant makes of its operand, as one function of the instruction (R50). -/
def resultOf : Instr → Result
  | .packVariant1 V => packVariant1 V
  | .packVariant2 V => packVariant2 V
  | .packVariant3 V => packVariant3 V
  | .packVariant4 V => packVariant4 V
  | .packVariant5 V => packVariant5 V
  | .packVariant6 V => packVariant6 V

/-- The result is defined exactly on the defined domain (R54). -/
theorem resultOf_defined_iff (i : Instr) : (∃ mask, resultOf i = .defined mask) ↔ i.wellFormed = true := by
  cases i <;>
    simp [resultOf, packVariant1, packVariant2, packVariant3, packVariant4, packVariant5, packVariant6,
      Instr.wellFormed, Instr.capability, Instr.vec] <;> split <;> simp_all

/-- Every instruction goes on, by driving its result. -/
theorem exec_eq (i : Instr) (s : State) : exec i s = .next (s.driveResult (encode i).sel i.vec (resultOf i)) := by
  cases i <;> rfl

/-- Everything an instruction can do: drive a defined value, or drive some value and count a draw. -/
theorem exec_cases (i : Instr) (s : State) :
    (i.wellFormed = true ∧ ∃ mask, resultOf i = .defined mask ∧ exec i s = .next { s with mask_o := mask }) ∨
    (i.wellFormed = false ∧ ∃ mask, exec i s = .next { s with mask_o := mask, draws := s.draws + 1 }) := by
  rw [exec_eq]
  rcases s.driveResult_cases (encode i).sel i.vec (resultOf i) with ⟨mask, hr, hs⟩ | ⟨hr, mask, hs⟩
  · exact .inl ⟨(resultOf_defined_iff i).mp ⟨mask, hr⟩, mask, hr, by rw [hs]⟩
  · refine .inr ⟨?_, mask, by rw [hs]⟩
    rw [← Bool.not_eq_true, ← resultOf_defined_iff, hr]
    rintro ⟨m, hm⟩
    cases hm

/-- Everything a step can do, from a state whose next request is `r`: evaluate the instruction it decodes to, or refuse
it because its select is reserved. -/
theorem step_cons (s : State) (r : Request) (rest : List Request) (h : s.requests = r :: rest) :
    (∃ i, decode r = .ok i ∧ encode i = r ∧ r.legal = true ∧
      step s = recordNext (exec i (s.present r rest))) ∨
    (r.legal = false ∧ step s = .refused (.reservedSelect r.sel)) := by
  have hstep : step s = evaluate (s.present r rest) := by simp [step, evaluateNext, h]
  rcases decode_cases r with ⟨i, hd, he, hl⟩ | ⟨hd, hl⟩
  · exact .inl ⟨i, hd, he, hl, by simp [hstep, evaluate, hd]⟩
  · exact .inr ⟨hl, by simp [hstep, evaluate, hd, refusalOf]⟩

/-- With no request there is no step. -/
theorem step_nil (s : State) (h : s.requests = []) : step s = .refused .noRequest := by
  simp [step, evaluateNext, h]

/-- What a step that answers a next state has done. -/
theorem step_next (s t : State) (h : step s = .next t) :
    ∃ r rest i, s.requests = r :: rest ∧ decode r = .ok i ∧ encode i = r ∧ r.legal = true ∧
      recordNext (exec i (s.present r rest)) = .next t := by
  cases hs : s.requests with
  | nil => rw [step_nil s hs] at h; cases h
  | cons r rest =>
    rcases step_cons s r rest hs with ⟨i, hd, he, hl, hstep⟩ | ⟨-, hstep⟩
    · exact ⟨r, rest, i, rfl, hd, he, hl, hstep ▸ h⟩
    · rw [hstep] at h; cases h

end Sys2Proof.Machine
end

