-- ==== Sys2Proof/Laws/Operands.lean ====
section
/-! SUPPORT. The views of the operand bit by bit: elements, assembling, well-formedness. -/

namespace Sys2Proof.Machine

/-- Bit `b` of an element is one bit of the whole (R13). -/
theorem getLsbD_elem {n : Nat} (w : Nat) (X : BitVec n) (j b : Nat) :
    (elem w X j).getLsbD b = (decide (b < w) && X.getLsbD (w * j + b)) := by
  simp [elem, BitVec.getLsbD_extractLsb']

theorem getLsbD_lane (V : LaneVector) (i b : Nat) :
    (lane V i).getLsbD b = (decide (b < 8) && V.getLsbD (8 * i + b)) :=
  getLsbD_elem 8 V i b

theorem signBit_eq (V : LaneVector) (i : Nat) : signBit V i = V.getLsbD (8 * i + 7) := by
  rw [signBit, getLsbD_lane]; rfl

/-- Bit `k` of an assembled value is bit `k mod w` of element `k / w` (R13). -/
theorem getLsbD_assemble {w : Nat} (hw : 0 < w) (n : Nat) (X : Elems w) (count k : Nat) :
    (assemble n X count).getLsbD k =
      (decide (k < n) && (decide (k / w < count) && (X (k / w)).getLsbD (k % w))) := by
  induction count with
  | zero => simp [assemble]
  | succ count ih =>
    have hdm := Nat.div_add_mod k w
    have hlt := Nat.mod_lt k hw
    by_cases hn : k < n
    · simp only [assemble, BitVec.getLsbD_or, ih, BitVec.getLsbD_shiftLeft, BitVec.getLsbD_setWidth, hn,
        decide_true, Bool.true_and]
      rcases Nat.lt_trichotomy (k / w) count with h | h | h
      · have hk : k < w * count := by
          have : w * (k / w + 1) ≤ w * count := Nat.mul_le_mul_left w h
          rw [Nat.mul_add] at this; omega
        simp [h, Nat.lt_succ_of_lt h, hk]
      · have h1 : ¬ k < w * count := by rw [← h]; omega
        have h2 : k - w * count = k % w := by rw [← h]; omega
        have h3 : k % w < n := by omega
        simp [h, h1, h2, h3]
      · have hk : w ≤ k - w * count := by
          have : w * (count + 1) ≤ w * (k / w) := Nat.mul_le_mul_left w h
          rw [Nat.mul_add] at this; omega
        have h1 : ¬ k / w < count := by omega
        have h2 : ¬ k / w < count + 1 := by omega
        simp [h1, h2, BitVec.getLsbD_of_ge _ _ hk]
    · simp [hn, BitVec.getLsbD_of_ge _ _ (Nat.le_of_not_lt hn)]

/-- Reading an element of an assembled value gives the element back (R13). -/
theorem elem_assemble {w : Nat} (n : Nat) (X : Elems w) (count j : Nat) (hj : j < count) (hn : w * (j + 1) ≤ n) :
    elem w (assemble n X count) j = X j := by
  apply BitVec.eq_of_getLsbD_eq
  intro b hb
  have hw : 0 < w := by omega
  have h1 : (w * j + b) / w = j := by rw [Nat.mul_add_div hw, Nat.div_eq_of_lt hb, Nat.add_zero]
  have h2 : (w * j + b) % w = b := by rw [Nat.mul_add_mod, Nat.mod_eq_of_lt hb]
  have h3 : w * j + b < n := by rw [Nat.mul_add] at hn; omega
  rw [getLsbD_elem, getLsbD_assemble hw, h1, h2]
  simp [hb, hj, h3]

/-- An element of twice the width is two elements, the even one low (R13). -/
theorem elem_double {n : Nat} (w : Nat) (X : BitVec n) (j : Nat) :
    elem (2 * w) X j = (elem w X (2 * j + 1) ++ elem w X (2 * j)).cast (by omega) := by
  apply BitVec.eq_of_getLsbD_eq
  intro b hb
  rw [BitVec.getLsbD_cast, BitVec.getLsbD_append, getLsbD_elem, getLsbD_elem, getLsbD_elem]
  have e1 : 2 * w * j = w * (2 * j) := by ring
  have e2 : w * (2 * j + 1) = w * (2 * j) + w := by ring
  by_cases h : b < w
  · simp only [h, hb, if_true, decide_true, Bool.true_and, e1]
  · have h1 : b - w < w := by omega
    have h2 : 2 * w * j + b = w * (2 * j + 1) + (b - w) := by rw [e1, e2]; omega
    simp only [h, hb, h1, h2, if_false, decide_true, Bool.true_and]

/-- Bit `i` of the reference mask (R51). -/
theorem getLsbD_REF (V : LaneVector) (i : Nat) (hi : i < 16) : (REF V).getLsbD i = signBit V i := by
  rw [REF, getLsbD_assemble (by decide)]
  simp [hi, Nat.mod_one]

/-- Lane `i` of the operand a mask spreads to (R58 a). -/
theorem lane_spread (m : LaneMask) (i : Nat) (hi : i < 16) :
    lane (spread m) i = if m.getLsbD i then 0xFF#8 else 0x00#8 :=
  elem_assemble 128 _ 16 i hi (by omega)

/-- What `wf` checks, as a fact about each lane (R14). -/
theorem wf_iff (V : LaneVector) : wf V = true ↔ ∀ i, i < 16 → lane V i = 0x00#8 ∨ lane V i = 0xFF#8 := by
  simp [wf, List.all_eq_true]

/-- Two operands with the same sixteen lanes are the same operand (R12). -/
theorem eq_of_lanes_eq {U V : LaneVector} (h : ∀ i, i < 16 → lane U i = lane V i) : U = V := by
  apply BitVec.eq_of_getLsbD_eq
  intro k hk
  have hl := congrArg (fun x : Byte => x.getLsbD (k % 8)) (h (k / 8) (by omega))
  simpa only [getLsbD_lane, Nat.mod_lt k (by decide : 0 < 8), decide_true, Bool.true_and, Nat.div_add_mod] using hl

end Sys2Proof.Machine
end

