-- ==== Sys2Proof/Laws/PerInstr.lean ====
section
/-! SUPPORT. Facts about every instruction as syntax, one lemma per constructor. -/

namespace Sys2Proof.Laws.RowOfTheMap

/-- An instruction's request carries its own row's select and the operand as it stands, its written word fits the row
with its mnemonic, and it is a legal request (R40, R41, R42, R44). -/
def Statement (i : Instr) : Prop :=
  ∃ row ∈ opcodeRows, row.mnemonic = mnemonic i ∧
    (encode i).sel = row.pattern.extractLsb' 128 3 ∧ row.pattern.extractLsb' 0 128 = 0 ∧
    (encode i).vec = i.vec ∧ (encode i).legal = true

theorem packVariant1 (vec : LaneVector) : Statement (.packVariant1 vec) :=
  ⟨⟨"pack_variant_1", 0x700000000000000000000000000000000#131, 0x100000000000000000000000000000000#131⟩,
    by simp [opcodeRows], rfl, by simp [encode], by decide, rfl, rfl⟩

theorem packVariant2 (vec : LaneVector) : Statement (.packVariant2 vec) :=
  ⟨⟨"pack_variant_2", 0x700000000000000000000000000000000#131, 0x200000000000000000000000000000000#131⟩,
    by simp [opcodeRows], rfl, by simp [encode], by decide, rfl, rfl⟩

theorem packVariant3 (vec : LaneVector) : Statement (.packVariant3 vec) :=
  ⟨⟨"pack_variant_3", 0x700000000000000000000000000000000#131, 0x300000000000000000000000000000000#131⟩,
    by simp [opcodeRows], rfl, by simp [encode], by decide, rfl, rfl⟩

theorem packVariant4 (vec : LaneVector) : Statement (.packVariant4 vec) :=
  ⟨⟨"pack_variant_4", 0x700000000000000000000000000000000#131, 0x400000000000000000000000000000000#131⟩,
    by simp [opcodeRows], rfl, by simp [encode], by decide, rfl, rfl⟩

theorem packVariant5 (vec : LaneVector) : Statement (.packVariant5 vec) :=
  ⟨⟨"pack_variant_5", 0x700000000000000000000000000000000#131, 0x500000000000000000000000000000000#131⟩,
    by simp [opcodeRows], rfl, by simp [encode], by decide, rfl, rfl⟩

theorem packVariant6 (vec : LaneVector) : Statement (.packVariant6 vec) :=
  ⟨⟨"pack_variant_6", 0x700000000000000000000000000000000#131, 0x600000000000000000000000000000000#131⟩,
    by simp [opcodeRows], rfl, by simp [encode], by decide, rfl, rfl⟩

end Sys2Proof.Laws.RowOfTheMap
end

