-- ==== Sys2Proof/Laws/Primitives.lean ====
section
/-! SUPPORT. The primitives: the equations of each, and the one fact that makes every reduction of the block exact, a sum
whose terms share no bit is their OR. -/

namespace Sys2Proof.Machine

variable {w : Nat}

@[simp] theorem andElems_apply (X C : Elems w) (j : Nat) : andElems X C j = X j &&& C j := rfl
@[simp] theorem shrElems_apply (X : Elems w) (s j : Nat) : shrElems X s j = X j >>> s := rfl
@[simp] theorem sarElems_apply (X : Elems w) (s j : Nat) : sarElems X s j = (X j).sshiftRight s := rfl
@[simp] theorem padd_apply (X : Elems w) (j : Nat) : padd X j = X (2 * j) + X (2 * j + 1) := rfl
@[simp] theorem hsum_zero (X : Elems w) : hsum X 0 = 0 := rfl
@[simp] theorem hsum_succ (X : Elems w) (n : Nat) : hsum X (n + 1) = hsum X n + X n := rfl

/-- The widening pairwise add, as a 2w-bit sum of two zero-extended elements (R17). -/
theorem paddl_apply (X : Elems w) (j : Nat) :
    paddl X j = (X (2 * j)).setWidth (2 * w) + (X (2 * j + 1)).setWidth (2 * w) := rfl

/-- The shift-accumulate step, as a w-bit sum (R18). -/
theorem sracc_eq (x : BitVec w) (s : Nat) : sracc x s = x + (x >>> s) := rfl

theorem zip8_even (P Q : Elems 8) (j : Nat) : zip8 P Q (2 * j) = P j := by
  simp [zip8]

theorem zip8_odd (P Q : Elems 8) (j : Nat) : zip8 P Q (2 * j + 1) = Q j := by
  have h1 : (2 * j + 1) % 2 = 1 := by omega
  have h2 : (2 * j + 1) / 2 = j := by omega
  simp [zip8, h1, h2]

/-- The whole of the table shift at an entry that is not negative. -/
theorem vshiftElems_of_nonneg (X : Elems w) (T : Nat → Int) (j : Nat) (h : 0 ≤ T j) :
    vshiftElems X T j = X j <<< (T j).toNat := by
  simp [vshiftElems, h]

/-- The whole of the table shift at a negative entry. -/
theorem vshiftElems_of_neg (X : Elems w) (T : Nat → Int) (j : Nat) (h : T j < 0) :
    vshiftElems X T j = X j >>> (-T j).toNat := by
  simp [vshiftElems, Int.not_le.mpr h]

/-- Two values that share no bit add to their OR. -/
theorem add_eq_or_of_disjoint (x y : BitVec w) (h : ∀ b, b < w → ¬ (x.getLsbD b = true ∧ y.getLsbD b = true)) :
    x + y = x ||| y := by
  apply BitVec.add_eq_or_of_and_eq_zero
  apply BitVec.eq_of_getLsbD_eq
  intro b hb
  have := h b hb
  simp only [BitVec.getLsbD_and, BitVec.getLsbD_zero]
  cases hx : x.getLsbD b <;> cases hy : y.getLsbD b <;> simp_all

/-- A horizontal sum whose terms pairwise share no bit has exactly the bits of its terms (R92, R102: "no carry and no
wrap, equals the bitwise OR"). -/
theorem getLsbD_hsum_of_disjoint (X : Elems w) (n : Nat)
    (h : ∀ i j b, i < n → j < n → i ≠ j → ¬ ((X i).getLsbD b = true ∧ (X j).getLsbD b = true)) (b : Nat) :
    (hsum X n).getLsbD b = (List.range n).any fun j => (X j).getLsbD b := by
  induction n generalizing b with
  | zero => simp [hsum]
  | succ n ih =>
    have ih' := ih fun i j b hi hj => h i j b (Nat.lt_succ_of_lt hi) (Nat.lt_succ_of_lt hj)
    have hor : hsum X n + X n = hsum X n ||| X n := by
      apply add_eq_or_of_disjoint
      rintro c - ⟨hs, hx⟩
      rw [ih' c, List.any_eq_true] at hs
      obtain ⟨j, hj, hjc⟩ := hs
      rw [List.mem_range] at hj
      exact h j n c (by omega) (by omega) (by omega) ⟨hjc, hx⟩
    simp [hsum, hor, ih' b, List.range_succ, List.any_append]

end Sys2Proof.Machine
end

