-- ==== Sys2Proof/Machine/Flags.lean ====
section
/-! DEFINITION. Flag computations: there are none. The block has no flag, condition code or predicate, no variant writes a
carry, overflow, zero or error flag, and the mask is the only output (R15, R22; "Flags written: none" in R60, R62, R70,
R80, R90 and R100). The file stands here so that this is an answer and not an omission. -/
end

