-- ==== Sys2Proof/Tests/Slice0.lean ====
section
/-! SUPPORT. Tests. Every expected value is the spec's own: a worked example of a variant's rule, a row of
95_test_vectors.md, or a word written out from R40 and R42. At the end, a witness for the hypotheses of each statement. -/

namespace Sys2Proof.Tests
open Sys2Proof.Machine

/-- The operand of every variant's worked example, `m = 0xA5C3`. -/
abbrev example1 : LaneVector := 0xFF00FF0000FF00FFFFFF00000000FFFF#128

/-- The arbitrary bytes of every variant's second example, `REF = 0x5569`. -/
abbrev example2 : LaneVector := 0x7EAA55F00F9040813CC3FF00FE017F80#128

/-- A state about to be asked one request. -/
abbrev asked (r : Request) : State := { State.reset with requests := [r] }

/-- The result of the one step that answers a request, `none` where it is refused. -/
def answer (r : Request) : Option (BitVec Config.outW) :=
  match step (asked r) with
  | .next s => some s.mask_o
  | .fault _ => none
  | .refused _ => none

/-- The answer to an instruction's request is its defined result. -/
theorem answer_of_result (i : Instr) (m : LaneMask) (h : resultOf i = .defined (zextOut m)) :
    answer (encode i) = some (zextOut m) := by
  have hd : decode (encode i) = .ok i := by cases i <;> rfl
  have hs : step (asked (encode i)) = recordNext (exec i ((asked (encode i)).present (encode i) [])) := by
    simp [step, evaluateNext, evaluate, hd]
  simp [answer, hs, exec_eq, h]

-- Decoding: words written out from R40 and R42, and the vectors of section 2.5.

theorem test_decode_pack_variant_1 :
    decodeWord 0x1FF00FF0000FF00FFFFFF00000000FFFF#131 = .ok (.packVariant1 example1) := by decide
theorem test_decode_pack_variant_2 :
    decodeWord 0x2FF00FF0000FF00FFFFFF00000000FFFF#131 = .ok (.packVariant2 example1) := by decide
theorem test_decode_pack_variant_3 :
    decodeWord 0x37EAA55F00F9040813CC3FF00FE017F80#131 = .ok (.packVariant3 example2) := by decide
theorem test_decode_pack_variant_4 :
    decodeWord 0x47EAA55F00F9040813CC3FF00FE017F80#131 = .ok (.packVariant4 example2) := by decide
theorem test_decode_pack_variant_5 :
    decodeWord 0x5FF0000000000000000000000000000FF#131 =
      .ok (.packVariant5 0xFF0000000000000000000000000000FF#128) := by decide
theorem test_decode_pack_variant_6 :
    decodeWord 0x680808080808080808080808080808080#131 =
      .ok (.packVariant6 0x80808080808080808080808080808080#128) := by decide
theorem test_decode_reserved :
    decodeWord 0x0FFFFFFFFFFFFFFFFFFFFFFFFFFFFFFFF#131 = .error (.reservedSelect 0) ∧
    decodeWord 0x7FFFFFFFFFFFFFFFFFFFFFFFFFFFFFFFF#131 = .error (.reservedSelect 7) := by decide

/-- A select bit by bit, from R42's binary column: 110 is variant 6, with lane 0 in the low byte. -/
theorem test_decode_bit_by_bit :
    decodeWord (0b110#3 ++ 0x00000000000000000000000000008001#128) =
      .ok (.packVariant6 0x00000000000000000000000000008001#128) := by decide

/-- A table word as the host numbers it, in seventeen bytes, and a number with a bit above bit 130. -/
theorem test_decode_table_word :
    decodeTableWord 136 0x37EAA55F00F9040813CC3FF00FE017F80 = some (.packVariant3 example2) ∧
    decodeTableWord 136 0xB7EAA55F00F9040813CC3FF00FE017F80 = none := by decide

/-- The text forms of R48, as section 2 writes them. -/
theorem test_text_forms :
    requestText (.packVariant3 example2) = "pack_variant_3 0x7EAA55F00F9040813CC3FF00FE017F80" ∧
    reqText ⟨3, example2⟩ = "37EAA55F00F9040813CC3FF00FE017F80".toList ∧
    responseText 0x0000A5C3#32 = "-> 0x0000A5C3" := by decide

/-- No word fits two rows of the opcode map (R42). -/
theorem test_opcode_rows_are_disjoint :
    opcodeRows.Pairwise fun a b => a.mask = b.mask ∧ a.pattern ≠ b.pattern := by decide

-- Well-formedness: a term each check refuses, beside its accepted neighbour (section 2.6).

theorem smoke_reserved_selects_refused :
    Request.legal ⟨0, 0⟩ = false ∧ Request.legal ⟨7, 0⟩ = false ∧
    Request.legal ⟨1, 0⟩ = true ∧ Request.legal ⟨6, 0⟩ = true := by decide
theorem smoke_malformed_operands_refused :
    (Instr.packVariant1 0xFE#128).wellFormed = false ∧ (Instr.packVariant2 0x80#128).wellFormed = false ∧
    (Instr.packVariant5 0x8000#128).wellFormed = false ∧ (Instr.packVariant5 0x0100#128).wellFormed = false := by
  decide
theorem smoke_their_neighbours_accepted :
    (Instr.packVariant1 0xFF#128).wellFormed = true ∧ (Instr.packVariant3 0xFE#128).wellFormed = true ∧
    (Instr.packVariant4 0x80#128).wellFormed = true ∧ (Instr.packVariant6 0x8000#128).wellFormed = true ∧
    (Instr.packVariant5 0xFF00#128).wellFormed = true := by decide
theorem smoke_short_operand_refused : vecOfLanes (List.replicate 15 0xFF#8) = none := by decide

-- The six instructions: one step on the worked example, and a trace of the stages.

theorem test_pack_variant_1 : answer ⟨1, example1⟩ = some (zextOut 0xA5C3#16) :=
  answer_of_result (.packVariant1 example1) _ (by
    rw [resultOf, packVariant1, if_pos (by decide), (by decide : packMask1 example1 = 0xA5C3#16)])

/-- The stages of R60's worked example. -/
theorem test_pack_variant_1_stages :
    (List.range 8).map (sum16 example1) =
      [0x0003#16, 0x0000#16, 0x0000#16, 0x00C0#16, 0x0001#16, 0x0004#16, 0x0020#16, 0x0080#16] ∧
    (List.range 4).map (sum32 example1) = [0x00000003#32, 0x000000C0#32, 0x00000005#32, 0x000000A0#32] ∧
    (List.range 2).map (sum64 example1) = [0xC3#64, 0xA5#64] := by decide

theorem test_pack_variant_2 : answer ⟨2, example1⟩ = some (zextOut 0xA5C3#16) :=
  answer_of_result (.packVariant2 example1) _ (by
    rw [resultOf, packVariant2, if_pos (by decide), (by decide : packMask2 example1 = 0xA5C3#16)])

/-- R62's second example: only lanes 0 and 15 set. -/
theorem test_pack_variant_2_stages :
    sum64 0xFF0000000000000000000000000000FF#128 0 = 0x01#64 ∧
    sum64 0xFF0000000000000000000000000000FF#128 1 = 0x80#64 ∧
    combined2 0xFF0000000000000000000000000000FF#128 = 0x8001#64 := by decide

theorem test_pack_variant_3 : answer ⟨3, example2⟩ = some (zextOut 0x5569#16) :=
  answer_of_result (.packVariant3 example2) _ (by
    rw [resultOf, packVariant3, (by decide : packMask3 example2 = 0x5569#16)])

/-- The stages of R70's worked examples. -/
theorem test_pack_variant_3_stages :
    (List.range 8).map (acc16 example1) =
      [0x0103#16, 0x0000#16, 0x0000#16, 0x0103#16, 0x0001#16, 0x0001#16, 0x0102#16, 0x0102#16] ∧
    (List.range 4).map (acc32 example1) = [0x00000103#32, 0x0103040C#32, 0x00010005#32, 0x0102050A#32] ∧
    (List.range 2).map (acc64 example1) = [0x0103040C103041C3#64, 0x0102050A102150A5#64] ∧
    (List.range 2).map (acc64 example2) = [0x0001010601121469#64, 0x0001000500110055#64] := by decide

theorem test_pack_variant_4 : answer ⟨4, example2⟩ = some (zextOut 0x5569#16) :=
  answer_of_result (.packVariant4 example2) _ (by
    rw [resultOf, packVariant4, (by decide : packMask4 example2 = 0x5569#16)])

/-- The stages of R80's worked example, the high half. -/
theorem test_pack_variant_4_stages :
    (List.range 8).map (placed4 (hi8 (lane example1))) =
      [0x01#8, 0x00#8, 0x04#8, 0x00#8, 0x00#8, 0x20#8, 0x00#8, 0x80#8] ∧
    (List.range 4).map (fold4 (hi8 (lane example1))) = [0x01#8, 0x04#8, 0x20#8, 0x80#8] ∧
    (List.range 2).map (fold2 (hi8 (lane example1))) = [0x05#8, 0xA0#8] ∧
    halfMask (hi8 (lane example1)) = 0xA5#8 ∧ halfMask (lo8 (lane example1)) = 0xC3#8 := by decide

theorem test_pack_variant_5 : answer ⟨5, example1⟩ = some (zextOut 0xA5C3#16) :=
  answer_of_result (.packVariant5 example1) _ (by
    rw [resultOf, packVariant5, if_pos (by decide), (by decide : packMask5 example1 = 0xA5C3#16)])

/-- The stages of R90's worked example. -/
theorem test_pack_variant_5_stages :
    (List.range 8).map (pairs5 example1) =
      [0x0180#16, 0x0000#16, 0x0000#16, 0x0180#16, 0x0080#16, 0x0080#16, 0x0100#16, 0x0100#16] ∧
    (List.range 8).map (spread5 example1) =
      [0x0003#16, 0x0000#16, 0x0000#16, 0x00C0#16, 0x0100#16, 0x0400#16, 0x2000#16, 0x8000#16] := by decide

theorem test_pack_variant_6 : answer ⟨6, example2⟩ = some (zextOut 0x5569#16) :=
  answer_of_result (.packVariant6 example2) _ (by
    rw [resultOf, packVariant6, (by decide : packMask6 example2 = 0x5569#16)])

/-- The stages of R100's worked examples. -/
theorem test_pack_variant_6_stages :
    (List.range 8).map (words6 example1) =
      [0x0101#16, 0x0002#16, 0x0400#16, 0x0000#16, 0x0000#16, 0x2000#16, 0x0040#16, 0x8080#16] ∧
    (List.range 8).map (words6 example2) =
      [0x0101#16, 0x0000#16, 0x0400#16, 0x0008#16, 0x1000#16, 0x0020#16, 0x4040#16, 0x0000#16] := by decide

-- The wrong readings of 90_conflicts.md and section 3 item 6 give the values the spec lists for them.

/-- Variant 5 with the word mask `0x8080` maps `m = 0x0002` to `0x0100` (C5). -/
theorem test_refuted_word_mask_0x8080 :
    hsum (vshiftElems (andElems (elem 16 (spread 0x0002#16)) fun _ => 0x8080#16) OFF5) 8 = 0x0100#16 := by decide

/-- Variant 1 with a byte product for its weighting maps the all-ones operand to `0x0101` (C1). -/
theorem test_refuted_byte_product :
    let sums : Elems 64 := paddl (paddl (paddl fun i => lane (BitVec.allOnes 128) i * WT i : Elems 16) : Elems 32)
    byte (sums 1) 0 ++ byte (sums 0) 0 = 0x0101#16 := by decide

/-- Variant 3 with a left shift in its accumulate step, reading the low bytes (C3). -/
def leftShiftTree (V : LaneVector) : LaneMask :=
  let p16 : Elems 16 := fun j => elem 16 (signVec3 V) j + (elem 16 (signVec3 V) j <<< 7)
  let p32 : Elems 32 := fun j => elem 32 (assemble 128 p16 8) j + (elem 32 (assemble 128 p16 8) j <<< 14)
  let p64 : Elems 64 := fun j => elem 64 (assemble 128 p32 4) j + (elem 64 (assemble 128 p32 4) j <<< 28)
  byte (p64 1) 0 ++ byte (p64 0) 0

/-- It maps `m = 0x0001` to `0x0081` and `m = 0x0002` to `0x0000`. -/
theorem test_refuted_left_shift :
    leftShiftTree (spread 0x0001#16) = 0x0081#16 ∧ leftShiftTree (spread 0x0002#16) = 0x0000#16 := by decide

/-- The datapaths' divergence on arbitrary bytes (section 2.4, informative columns; not the block's behaviour). -/
theorem test_strict_datapaths_diverge :
    packMask1 example2 = 0x196A#16 ∧ packMask2 example2 = 0x196A#16 ∧ packMask5 example2 = 0x7D63#16 ∧
    REF example2 = 0x5569#16 := by decide

/-- A strict variant given arbitrary bytes goes on, and a reserved select and an empty script are refused. -/
theorem test_malformed_goes_on_reserved_refused :
    (match step (asked ⟨1, example2⟩) with | .next s => s.draws | _ => 0) = 1 ∧
    step (asked ⟨7, example2⟩) = .refused (.reservedSelect 7) ∧
    step State.reset = .refused .noRequest := ⟨by decide, rfl, rfl⟩

-- A witness for the hypotheses of each statement that has some, at a boundary of its ranges.

theorem witness_EncodeOfDecodedWordIsTheWord :
    decodeWord 0x680808080808080808080808080808080#131 =
      .ok (.packVariant6 0x80808080808080808080808080808080#128) := by decide
theorem witness_ReservedExactlyWhenSelectIsZeroOrSeven :
    (0x7FFFFFFFFFFFFFFFFFFFFFFFFFFFFFFFF#131).extractLsb' 128 3 = 7#3 ∧
    (0x0FFFFFFFFFFFFFFFFFFFFFFFFFFFFFFFF#131).extractLsb' 128 3 = 0#3 ∧
    ¬ ((0x100000000000000000000000000000000#131).extractLsb' 128 3 = 0#3 ∨
      (0x100000000000000000000000000000000#131).extractLsb' 128 3 = 7#3) := by decide
theorem witness_WordFitsARowExactlyWhenItDecodesToIt :
    ⟨"pack_variant_6", 7#131 <<< 128, 6#131 <<< 128⟩ ∈ opcodeRows := by decide
theorem witness_TableWordDecodesAsTheWrittenWord : 131 ≤ 131 ∧ 2 ^ 131 ≤ 2 ^ 131 % 2 ^ 132 := by decide
theorem witness_LaneIsItsEightOperandBits : 15 < 16 ∧ 7 < 8 ∧ (lane example2 15).getLsbD 6 = true := by decide
theorem witness_ElementsNestLittleEndian :
    7 < 8 ∧ elem 16 example2 7 = 0x7EAA#16 ∧ 3 < 4 ∧ elem 32 example2 3 = 0x7EAA55F0#32 ∧
    1 < 2 ∧ elem 64 example2 1 = 0x7EAA55F00F904081#64 ∧ byte (elem 64 example2 1) 7 = 0x7E#8 := by decide
theorem witness_OperandIsItsSixteenLanes :
    (List.replicate 16 0xFF#8).length = 16 ∧ (List.replicate 17 0xFF#8).length ≠ 16 := by decide
theorem witness_WellFormedOperandsAreTheSpreadMasks :
    wf example1 = true ∧ example1 = spread 0xA5C3#16 ∧ spread 0x0001#16 = spread 0x0001#16 := by decide
theorem witness_WellFormedLanesAreAllZerosOrAllOnes :
    wf example1 = true ∧ 15 < 16 ∧ 7 < 8 ∧ signBit example1 15 = true ∧ signBit example1 14 = false := by decide
theorem witness_ShiftPrimitivesMoveTheseBits :
    15 < 16 ∧ 0 ≤ OFF5 4 ∧ OFF5 3 < 0 ∧ 0 ≤ SH4 7 := by decide
theorem witness_PairwiseAddsAreExactAndModular : 0 < 8 := by decide
theorem witness_HorizontalSumIsTheModularSumInAnyOrder : [2, 0, 1].Perm (List.range 3) := by decide
theorem witness_ZippedWordsPairTheTwoHalves : 7 < 8 ∧ zip8 (fun _ => 1#8) (fun _ => 2#8) 15 = 2#8 := by decide
theorem witness_ConstantTablesHoldTheirClosedForms :
    15 < 16 ∧ WT 15 = 0x80#8 ∧ 7 < 8 ∧ SH4 0 = -7 ∧ OFF5 7 = 7 := by decide
theorem witness_WeightedSumsAreTheBytesOfTheMask :
    wf example1 = true ∧ 15 < 16 ∧ 1 < 2 ∧ 8 ≤ 8 ∧ sum64 example1 1 = 0xA5#64 := by decide
theorem witness_DoublingTreeGathersTheSignBits :
    7 < 8 ∧ 3 < 4 ∧ 1 < 2 ∧ acc64 (BitVec.allOnes 128) 1 = 0x0103050F113355FF#64 := by decide
theorem witness_HalfMaskHoldsTheSignBitsOfItsHalf :
    7 < 8 ∧ 3 < 4 ∧ 1 < 2 ∧ halfMask (fun _ => 0x80#8) = 0xFF#8 := by decide
theorem witness_PairedBitsLandAtTheirMaskPositions :
    wf example1 = true ∧ 7 < 8 ∧ (pairs5 example1 7).getLsbD 8 = true ∧ (spread5 example1 7).getLsbD 15 = true := by
  decide
theorem witness_InterleavedWordsSumToTheMask : 7 < 8 ∧ words6 example1 7 = 0x8080#16 := by decide

theorem witness_PackVariant1DrivesTheMaskOfAWellFormedOperand : wf example1 = true := by decide
theorem witness_PackVariant2DrivesTheMaskOfAWellFormedOperand :
    wf 0xFF0000000000000000000000000000FF#128 = true := by decide
theorem witness_PackVariant5DrivesTheMaskOfAWellFormedOperand : wf (spread 0x1234#16) = true := by decide
theorem witness_StrictVariantsGoOnWhenTheOperandIsMalformed :
    wf example2 = false ∧ Instr.packVariant5 example2 = .packVariant5 example2 := by decide
theorem witness_EveryVariantMeetsTheContractOnItsDomain :
    15 < 16 ∧ wf example1 = true ∧ (Instr.packVariant5 example1).vec = example1 ∧
    (Instr.packVariant6 example2).vec = example2 ∧ (Instr.packVariant6 example2).capability = .signBitPacker := by
  decide
theorem witness_DefinedResultHasZerosAboveItsSixteenBits :
    (Instr.packVariant1 example1).wellFormed = true ∧ (Instr.packVariant3 example2).wellFormed = true ∧ 16 ≤ 16 := by
  decide
theorem witness_VariantsAgreeWhereTheyAreDefined :
    (Instr.packVariant1 example1).vec = (Instr.packVariant6 example1).vec ∧ wf example1 = true ∧
    (Instr.packVariant3 example2).vec = (Instr.packVariant4 example2).vec ∧
    (Instr.packVariant3 example2).capability = .signBitPacker ∧
    (Instr.packVariant4 example2).capability = .signBitPacker := by decide
theorem witness_EveryVariantReturnsTheMaskThatWasSpread :
    (Instr.packVariant1 (spread 0x1234#16)).vec = spread 0x1234#16 ∧ (Instr.packVariant2 0#128).vec = 0#128 ∧
    (Instr.packVariant3 (BitVec.allOnes 128)).vec = BitVec.allOnes 128 ∧ 15 < 16 ∧
    (Instr.packVariant5 0xFF000000000000000000000000000000#128).vec = 0xFF#128 <<< (8 * 15) := by decide
theorem witness_EveryVariantLeavesAllButTheOutputPort :
    exec (.packVariant1 example2) State.reset =
      .next (State.reset.driveResult 1 example2 (packVariant1 example2)) := rfl

/-- The state whose next request is variant 1 on the worked example, and what it decodes to. -/
theorem witness_StepRunsTheDecodedInstruction :
    (asked ⟨1, example1⟩).requests = ⟨1, example1⟩ :: [] ∧
    decode ⟨1, example1⟩ = .ok (.packVariant1 example1) := ⟨rfl, by decide⟩
theorem witness_StepRefusesAReservedSelectWhateverTheOperand :
    (asked ⟨7, example1⟩).requests = ⟨7, example1⟩ :: [] ∧ (⟨7, example1⟩ : Request).sel = 7#3 := ⟨rfl, rfl⟩
theorem witness_StepWithNoRequestIsRefused : State.reset.requests = [] := rfl
theorem witness_StepRunsThePlacedTableWord :
    decodeTableWord 136 0x1FF00FF0000FF00FFFFFF00000000FFFF = some (.packVariant1 example1) := by decide
theorem witness_StepAnswersAsPackDoes :
    (asked ⟨6, example2⟩).requests = ⟨6, example2⟩ :: [] ∧
    pack 6 example2 = some (.defined (zextOut (packMask6 example2))) ∧ pack 1 example2 = some .undefined ∧
    pack 0 example2 = none := ⟨rfl, rfl, by decide, by decide⟩
theorem witness_StepConsumesOneRequestAndRecordsOneEvaluation :
    step (asked ⟨3, example2⟩) = recordNext (exec (.packVariant3 example2) ((asked ⟨3, example2⟩).present ⟨3, example2⟩ [])) :=
  rfl
theorem witness_DefinedResultDependsOnItsRequestAlone :
    Request.inDomain ⟨1, example1⟩ = true ∧ (asked ⟨1, example1⟩).requests = ⟨1, example1⟩ :: [] ∧
    ({ asked ⟨1, example1⟩ with draws := 5 } : State).requests = ⟨1, example1⟩ :: [] := ⟨by decide, rfl, rfl⟩
theorem witness_DefinedEvaluationsCommute :
    Request.inDomain ⟨5, example1⟩ = true ∧ Request.inDomain ⟨3, example2⟩ = true ∧
    ({ State.reset with requests := [⟨5, example1⟩, ⟨3, example2⟩] } : State).requests =
      ⟨5, example1⟩ :: ⟨3, example2⟩ :: [] := ⟨by decide, by decide, rfl⟩
theorem witness_RepeatedDefinedEvaluationsAgree :
    Request.inDomain ⟨4, example2⟩ = true ∧
    ({ State.reset with requests := [⟨4, example2⟩, ⟨4, example2⟩] } : State).requests =
      ⟨4, example2⟩ :: ⟨4, example2⟩ :: [] := ⟨by decide, rfl⟩
theorem witness_UndefinedOutcomeLeavesNothingBehind :
    Request.legal ⟨5, example2⟩ = true ∧ Request.inDomain ⟨5, example2⟩ = false ∧
    Request.inDomain ⟨3, example2⟩ = true ∧
    ({ State.reset with requests := [⟨5, example2⟩, ⟨3, example2⟩] } : State).requests =
      ⟨5, example2⟩ :: ⟨3, example2⟩ :: [] := ⟨by decide, by decide, by decide, rfl⟩

/-- A state with the invariant, about to make an undefined evaluation. -/
theorem witness_StepKeepsTheInvariant :
    (asked ⟨2, example2⟩).Inv ∧
    step (asked ⟨2, example2⟩) =
      recordNext (exec (.packVariant2 example2) ((asked ⟨2, example2⟩).present ⟨2, example2⟩ [])) :=
  ⟨⟨nofun, nofun, fun h => absurd h (by decide), nofun⟩, rfl⟩
theorem witness_GoodRunAnswersEveryRequest :
    goodRun [⟨1, example1⟩, ⟨5, example2⟩] ∧
    ({ State.reset with requests := [⟨1, example1⟩, ⟨5, example2⟩] } : State).requests =
      [⟨1, example1⟩, ⟨5, example2⟩] ++ [] := ⟨by unfold goodRun; decide, rfl⟩

/-- Program 5 of section 4, turned so that a defined request comes first. -/
theorem witness_RunWithAReservedRequestStaysRefused :
    goodRun [⟨6, BitVec.allOnes 128⟩] ∧ Request.legal ⟨7, BitVec.allOnes 128⟩ = false ∧
    ({ State.reset with requests := [⟨6, BitVec.allOnes 128⟩, ⟨7, BitVec.allOnes 128⟩] } : State).requests =
      [⟨6, BitVec.allOnes 128⟩] ++ ⟨7, BitVec.allOnes 128⟩ :: [] := ⟨by unfold goodRun; decide, by decide, rfl⟩

end Sys2Proof.Tests
end

section
/-! SUPPORT. The operand, its views and the primitives, as 00_scope.md states them (R12 to R19): the facts about views
within views, Boolean lanes, spread masks, single bits of a shift and sums, then the theorems that settle the family. -/

namespace Sys2Proof.Machine

variable {w : Nat}

/-! Views within views (R13). -/

theorem getLsbD_elem_of_lt {n : Nat} (X : BitVec n) (j : Nat) {b : Nat} (hb : b < w) :
    (elem w X j).getLsbD b = X.getLsbD (w * j + b) := by
  rw [getLsbD_elem, decide_eq_true hb, Bool.true_and]

/-- A narrow element of a wide element is a narrow element of the whole (R13). -/
theorem elem_elem {n : Nat} (v r : Nat) (X : BitVec n) (j k : Nat) (hk : k < r) :
    elem v (elem (v * r) X j) k = elem v X (r * j + k) := by
  apply BitVec.eq_of_getLsbD_eq
  intro b hb
  have hin : v * k + b < v * r := by
    have := Nat.mul_le_mul_left v hk
    rw [Nat.mul_succ] at this
    omega
  have hpos : v * r * j + (v * k + b) = v * (r * j + k) + b := by ring
  rw [getLsbD_elem_of_lt _ _ hb, getLsbD_elem_of_lt _ _ hin, getLsbD_elem_of_lt _ _ hb, hpos]

theorem elem16_eq_bytes {n : Nat} (X : BitVec n) (k : Nat) :
    elem 16 X k = elem 8 X (2 * k + 1) ++ elem 8 X (2 * k) :=
  elem_double 8 X k

theorem elem32_eq_halves {n : Nat} (X : BitVec n) (k : Nat) :
    elem 32 X k = elem 16 X (2 * k + 1) ++ elem 16 X (2 * k) :=
  elem_double 16 X k

theorem elem64_eq_halves {n : Nat} (X : BitVec n) (k : Nat) :
    elem 64 X k = elem 32 X (2 * k + 1) ++ elem 32 X (2 * k) :=
  elem_double 32 X k

/-- Byte `j` of a 64-bit half is a lane of the operand. -/
theorem byte_elem64 (V : LaneVector) (h j : Nat) (hj : j < 8) : byte (elem 64 V h) j = lane V (8 * h + j) :=
  elem_elem 8 8 V h j hj

/-- A 16-bit element of an assembled byte sequence is the odd byte above the even one. -/
theorem elem16_assemble (n : Nat) (X : Elems 8) (count j : Nat) (hj : 2 * j + 1 < count) (hn : 16 * (j + 1) ≤ n) :
    elem 16 (assemble n X count) j = X (2 * j + 1) ++ X (2 * j) := by
  rw [elem16_eq_bytes, elem_assemble n X count _ hj (by omega), elem_assemble n X count _ (by omega) (by omega)]

/-! Boolean lanes (R14) and spread masks (R58). -/

/-- Every bit of a Boolean lane is the Boolean. -/
theorem getLsbD_boolLane (c : Bool) (b : Nat) :
    (if c then 0xFF#8 else 0x00#8 : Byte).getLsbD b = (decide (b < 8) && c) := by
  cases c
  · simp
  · simpa using BitVec.getLsbD_allOnes (v := 8) (i := b)

/-- A lane that is `0x00` or `0xFF` is the one its sign bit names. -/
theorem eq_boolLane_of_zero_or_ones {x : Byte} (h : x = 0x00#8 ∨ x = 0xFF#8) :
    x = if x.getLsbD 7 then 0xFF#8 else 0x00#8 := by
  rcases h with rfl | rfl <;> rfl

theorem lane_of_wf {V : LaneVector} (h : wf V = true) (i : Nat) (hi : i < 16) :
    lane V i = if signBit V i then 0xFF#8 else 0x00#8 :=
  eq_boolLane_of_zero_or_ones ((wf_iff V).mp h i hi)

theorem signBit_iff_of_wf {V : LaneVector} (h : wf V = true) (i : Nat) (hi : i < 16) :
    signBit V i = true ↔ lane V i = 0xFF#8 := by
  rw [lane_of_wf h i hi]
  cases signBit V i <;> decide

theorem getLsbD_lane_of_wf {V : LaneVector} (h : wf V = true) (i j : Nat) (hi : i < 16) (hj : j < 8) :
    (lane V i).getLsbD j = signBit V i := by
  rw [lane_of_wf h i hi, getLsbD_boolLane]
  simp [hj]

theorem signBit_spread (m : LaneMask) (i : Nat) (hi : i < 16) : signBit (spread m) i = m.getLsbD i := by
  rw [signBit, lane_spread m i hi, getLsbD_boolLane]
  rfl

theorem wf_spread (m : LaneMask) : wf (spread m) = true := by
  rw [wf_iff]
  intro i hi
  rw [lane_spread m i hi]
  cases m.getLsbD i
  · exact .inl rfl
  · exact .inr rfl

/-- The reference mask of `V_m` is `m` (R58). -/
theorem REF_spread (m : LaneMask) : REF (spread m) = m := by
  apply BitVec.eq_of_getLsbD_eq
  intro i hi
  rw [getLsbD_REF _ i hi, signBit_spread m i hi]

/-- A well-formed operand is the one its reference mask spreads to. -/
theorem eq_spread_REF_of_wf {V : LaneVector} (h : wf V = true) : V = spread (REF V) := by
  apply eq_of_lanes_eq
  intro i hi
  rw [lane_of_wf h i hi, lane_spread _ i hi, getLsbD_REF V i hi]

theorem spread_injective : Function.Injective spread :=
  Function.LeftInverse.injective REF_spread

/-! The shifts bit by bit (R16). -/

theorem getLsbD_shrElems (X : Elems w) (s j b : Nat) :
    (shrElems X s j).getLsbD b = (decide (b + s < w) && (X j).getLsbD (b + s)) := by
  rw [shrElems_apply, BitVec.getLsbD_ushiftRight, Nat.add_comm s b]
  by_cases h : b + s < w
  · simp [h]
  · simp [h, BitVec.getLsbD_of_ge _ _ (Nat.le_of_not_lt h)]

theorem getLsbD_sarElems (X : Elems w) (s j b : Nat) (hb : b < w) :
    (sarElems X s j).getLsbD b = if b + s < w then (X j).getLsbD (b + s) else (X j).getLsbD (w - 1) := by
  rw [sarElems_apply, BitVec.getLsbD_sshiftRight, BitVec.msb_eq_getLsbD_last, Nat.add_comm s b]
  simp [Nat.not_le.mpr hb]

/-- The arithmetic shift of a byte by 7 fills it with its sign bit (R16, R101). -/
theorem sarElems_seven (X : Elems 8) (j : Nat) :
    sarElems X 7 j = if (X j).getLsbD 7 then 0xFF#8 else 0x00#8 := by
  apply BitVec.eq_of_getLsbD_eq
  intro b hb
  rw [getLsbD_sarElems X 7 j b hb, getLsbD_boolLane]
  by_cases h : b = 0
  · subst h; rfl
  · have hge : ¬ b + 7 < 8 := by omega
    simp [hge, hb]

/-- A table shift to the left takes in zeros at the bottom and loses what passes the top (R16). -/
theorem getLsbD_vshiftElems_of_nonneg (X : Elems w) (T : Nat → Int) (j b : Nat) (hb : b < w) (h : 0 ≤ T j) :
    (vshiftElems X T j).getLsbD b = (decide ((T j).toNat ≤ b) && (X j).getLsbD (b - (T j).toNat)) := by
  rw [vshiftElems_of_nonneg X T j h, BitVec.getLsbD_shiftLeft, decide_eq_true hb, Bool.true_and, ← decide_not]
  simp only [Nat.not_lt]

/-- A table shift to the right is the logical right shift by the entry's magnitude (R16). -/
theorem vshiftElems_of_neg_eq_shrElems (X : Elems w) (T : Nat → Int) (j : Nat) (h : T j < 0) :
    vshiftElems X T j = shrElems X (-T j).toNat j :=
  vshiftElems_of_neg X T j h

/-! The additions (R17, R18). -/

/-- Two `w`-bit values add to at most `2^(w+1) - 2` (R17). -/
theorem toNat_add_toNat_le (x y : BitVec w) : x.toNat + y.toNat ≤ 2 ^ (w + 1) - 2 := by
  have hx := x.isLt
  have hy := y.isLt
  rw [Nat.pow_succ]
  omega

/-- The widening pairwise add does not overflow (R17). -/
theorem toNat_paddl (hw : 0 < w) (X : Elems w) (j : Nat) :
    (paddl X j).toNat = (X (2 * j)).toNat + (X (2 * j + 1)).toNat := by
  have hsum := toNat_add_toNat_le (X (2 * j)) (X (2 * j + 1))
  have hpow : 2 ^ (w + 1) ≤ 2 ^ (2 * w) := Nat.pow_le_pow_right (by decide) (by omega)
  have hpos : 0 < 2 ^ (w + 1) := Nat.two_pow_pos _
  rw [paddl_apply, BitVec.toNat_add, BitVec.toNat_setWidth_of_le (by omega), BitVec.toNat_setWidth_of_le (by omega),
    Nat.mod_eq_of_lt (by omega)]

theorem toNat_hsum (X : Elems w) (n : Nat) :
    (hsum X n).toNat = ((List.range n).map fun j => (X j).toNat).sum % 2 ^ w := by
  induction n with
  | zero => simp
  | succ n ih => simp [ih, List.range_succ]

/-- The horizontal sum is the library's sum of the list of its elements. -/
theorem hsum_eq_sum (X : Elems w) (n : Nat) : hsum X n = ((List.range n).map X).sum := by
  induction n with
  | zero => simp
  | succ n ih => simp [ih, List.range_succ]

theorem hsum_eq_sum_of_perm (X : Elems w) (n : Nat) (order : List Nat) (h : order.Perm (List.range n)) :
    hsum X n = (order.map X).sum := by
  rw [hsum_eq_sum]
  exact (h.map X).sum_eq.symm

theorem toNat_sracc (x : BitVec w) (s : Nat) : (sracc x s).toNat = (x.toNat + x.toNat / 2 ^ s) % 2 ^ w := by
  rw [sracc_eq, BitVec.toNat_add, BitVec.toNat_ushiftRight, Nat.shiftRight_eq_div_pow]

/-! The obligations. -/

/-- Settles O8, by the bit of an element. -/
theorem laneIsItsEightOperandBits : Obligations.LaneIsItsEightOperandBits := by
  unfold Obligations.LaneIsItsEightOperandBits
  exact fun V i j _ hj => getLsbD_elem_of_lt V i hj

/-- Settles O9, by splitting an element in two at each width; the halves' bytes are elements of an element. -/
theorem elementsNestLittleEndian : Obligations.ElementsNestLittleEndian := by
  unfold Obligations.ElementsNestLittleEndian
  intro V
  refine ⟨fun w j b hb => getLsbD_elem_of_lt V j hb, fun k _ => elem16_eq_bytes V k, fun k _ => elem32_eq_halves V k,
    fun k _ => elem64_eq_halves V k, fun j hj => ⟨?_, byte_elem64 V 1 j hj⟩⟩
  simpa using byte_elem64 V 0 j hj

/-- Settles O11: `REF` and `spread` are inverse to each other on the well-formed operands. -/
theorem wellFormedOperandsAreTheSpreadMasks : Obligations.WellFormedOperandsAreTheSpreadMasks := by
  unfold Obligations.WellFormedOperandsAreTheSpreadMasks
  refine ⟨fun V => ⟨fun h => ⟨REF V, eq_spread_REF_of_wf h⟩, ?_⟩, fun m m' h => spread_injective h, REF_spread⟩
  rintro ⟨m, rfl⟩
  exact wf_spread m

/-- Settles O12: a well-formed lane is the Boolean lane of its sign bit. -/
theorem wellFormedLanesAreAllZerosOrAllOnes : Obligations.WellFormedLanesAreAllZerosOrAllOnes := by
  unfold Obligations.WellFormedLanesAreAllZerosOrAllOnes
  exact fun V => ⟨wf_iff V, fun h i hi => ⟨signBit_iff_of_wf h i hi, fun j hj => getLsbD_lane_of_wf h i j hi hj⟩⟩

/-- Settles O13, one bit lemma for each primitive. -/
theorem shiftPrimitivesMoveTheseBits : Obligations.ShiftPrimitivesMoveTheseBits := by
  unfold Obligations.ShiftPrimitivesMoveTheseBits
  refine ⟨sarElems_seven, fun w X C T s j b hb => ⟨?_, getLsbD_shrElems X s j b, getLsbD_sarElems X s j b hb,
    getLsbD_vshiftElems_of_nonneg X T j b hb, fun hneg => ?_⟩⟩
  · rw [andElems_apply, BitVec.getLsbD_and]
  · rw [vshiftElems_of_neg_eq_shrElems X T j hneg, getLsbD_shrElems]

/-- Settles O14: the sum of two elements has room in the doubled width. -/
theorem pairwiseAddsAreExactAndModular : Obligations.PairwiseAddsAreExactAndModular := by
  unfold Obligations.PairwiseAddsAreExactAndModular
  intro w X j hw
  refine ⟨toNat_paddl hw X j, ?_, ?_⟩
  · rw [toNat_paddl hw X j]
    exact toNat_add_toNat_le _ _
  · rw [padd_apply, BitVec.toNat_add]

/-- Settles O15: the horizontal sum is a sum in the commutative monoid of `w`-bit values. -/
theorem horizontalSumIsTheModularSumInAnyOrder : Obligations.HorizontalSumIsTheModularSumInAnyOrder := by
  unfold Obligations.HorizontalSumIsTheModularSumInAnyOrder
  exact ⟨fun _ X n => toNat_hsum X n, fun _ X n order h => hsum_eq_sum_of_perm X n order h,
    fun _ x s => toNat_sracc x s⟩

/-- Settles O16: word `j` of the assembled zip is its byte `2j + 1` above its byte `2j`. -/
theorem zippedWordsPairTheTwoHalves : Obligations.ZippedWordsPairTheTwoHalves := by
  unfold Obligations.ZippedWordsPairTheTwoHalves
  refine ⟨fun n X k b hb => getLsbD_elem_of_lt X k hb, fun P Q A j hj =>
    ⟨zip8_even P Q j, zip8_odd P Q j, ?_, rfl, rfl⟩⟩
  rw [elem16_assemble 128 _ 16 j (by omega) (by omega), zip8_odd, zip8_even]

end Sys2Proof.Machine
end

section
/-! SUPPORT. What an instruction and a step change in the state and what they leave as it is (R20, R25, R29, R131): the
one form of the next state in each case, then the theorems that settle the family. -/

namespace Sys2Proof.Machine

/-! An instruction. -/

/-- The next state an instruction answers: another value on the output port, and a draw counted outside the defined
domain. -/
theorem exec_next {i : Instr} {s t : State} (h : exec i s = .next t) :
    ∃ mask, t = { s with mask_o := mask, draws := if i.wellFormed then s.draws else s.draws + 1 } := by
  rcases exec_cases i s with ⟨hwf, mask, -, he⟩ | ⟨hwf, mask, he⟩
  all_goals
    rw [he] at h
    cases h
    exact ⟨mask, by simp [hwf]⟩

/-- In its defined domain an instruction has one value to drive, the same from every state (R29). -/
theorem exec_of_wellFormed {i : Instr} (h : i.wellFormed = true) :
    ∃ mask, ∀ s, exec i s = .next (s.drive mask) := by
  obtain ⟨mask, hr⟩ := (resultOf_defined_iff i).mpr h
  exact ⟨mask, fun s => by rw [exec_eq, hr, State.driveResult_defined]⟩

/-! A request and the instruction it decodes to. -/

theorem inDomain_of_decode {r : Request} {i : Instr} (h : decode r = .ok i) : r.inDomain = i.wellFormed := by
  simp [Request.inDomain, h]

theorem decode_of_inDomain {r : Request} (h : r.inDomain = true) : ∃ i, decode r = .ok i ∧ i.wellFormed = true := by
  rcases decode_cases r with ⟨i, hd, -, -⟩ | ⟨hd, -⟩
  · exact ⟨i, hd, inDomain_of_decode hd ▸ h⟩
  · simp [Request.inDomain, hd] at h

/-! A step. -/

/-- A recorded outcome that goes on comes from an instruction that went on. -/
theorem recordNext_eq_next {o : Host.Outcome State Fault Refusal} {t : State} (h : recordNext o = .next t) :
    ∃ u, o = .next u ∧ t = u.record := by
  cases o with
  | next u => cases h; exact ⟨u, rfl, rfl⟩
  | fault f => cases h
  | refused e => cases h

theorem step_of_decode {s : State} {r : Request} {rest : List Request} {i : Instr} (hs : s.requests = r :: rest)
    (hd : decode r = .ok i) : step s = recordNext (exec i (s.present r rest)) := by
  simp [step, evaluateNext, evaluate, hs, hd]

/-- A defined request has one value to drive, whatever the state it is presented in (R29, R36). -/
theorem step_of_inDomain {r : Request} (h : r.inDomain = true) :
    ∃ mask, ∀ s rest, s.requests = r :: rest → step s = .next ((s.present r rest).drive mask).record := by
  obtain ⟨i, hd, hwf⟩ := decode_of_inDomain h
  obtain ⟨mask, hexec⟩ := exec_of_wellFormed hwf
  exact ⟨mask, fun s rest hs => by rw [step_of_decode hs hd, hexec, recordNext_next]⟩

/-! The obligations. -/

/-- Settles O35, from the one form of an instruction's next state. -/
theorem everyVariantLeavesAllButTheOutputPort : Obligations.EveryVariantLeavesAllButTheOutputPort := by
  unfold Obligations.EveryVariantLeavesAllButTheOutputPort
  intro i s t h
  obtain ⟨mask, rfl⟩ := exec_next h
  exact ⟨rfl, rfl, rfl, rfl, rfl⟩

/-- Settles O43: the request is consumed by presenting it, and the instruction it decodes to touches neither the input
ports nor the record before the evaluation is added. -/
theorem stepConsumesOneRequestAndRecordsOneEvaluation :
    Obligations.StepConsumesOneRequestAndRecordsOneEvaluation := by
  unfold Obligations.StepConsumesOneRequestAndRecordsOneEvaluation
  intro s t h
  obtain ⟨r, rest, i, hs, hd, -, hlegal, hrec⟩ := step_next s t h
  obtain ⟨u, hexec, rfl⟩ := recordNext_eq_next hrec
  obtain ⟨mask, rfl⟩ := exec_next hexec
  exact ⟨r, hs, rfl, hlegal, rfl, by rw [inDomain_of_decode hd, State.record_draws, State.present_draws]⟩

/-- Settles O44: both steps drive the one value that the request has. -/
theorem definedResultDependsOnItsRequestAlone : Obligations.DefinedResultDependsOnItsRequestAlone := by
  unfold Obligations.DefinedResultDependsOnItsRequestAlone
  intro s t r ss ts hr hs ht
  obtain ⟨mask, hstep⟩ := step_of_inDomain hr
  exact ⟨_, _, hstep s ss hs, hstep t ts ht, rfl⟩

/-- Settles O37: presenting the request is the record update the statement writes out. -/
theorem stepRunsTheDecodedInstruction : Obligations.StepRunsTheDecodedInstruction := by
  unfold Obligations.StepRunsTheDecodedInstruction
  exact fun s r rest i hs hd => step_of_decode hs hd

end Sys2Proof.Machine
end

section
/-! SUPPORT. The operand as its list of lanes, and runs of defined requests (20_memory.md): a defined request puts one and
the same evaluation on record wherever it is presented, then the theorems that settle the family. -/

namespace Sys2Proof.Machine

/-! The operand and its lane list (R31, R32). -/

theorem length_lanesOf (V : LaneVector) : (lanesOf V).length = 16 := by
  rw [lanesOf, List.length_map, List.length_range]

theorem getD_lanesOf (V : LaneVector) {i : Nat} (hi : i < 16) : (lanesOf V).getD i 0 = lane V i := by
  simp [lanesOf, hi]

theorem vecOfLanes_of_length_eq {bytes : List Byte} (h : bytes.length = 16) :
    vecOfLanes bytes = some (assemble 128 (fun i => bytes.getD i 0) 16) :=
  if_pos h

theorem vecOfLanes_of_length_ne {bytes : List Byte} (h : bytes.length ≠ 16) : vecOfLanes bytes = none :=
  if_neg h

/-- Assembling the lanes of an operand gives the operand back. -/
theorem vecOfLanes_lanesOf (V : LaneVector) : vecOfLanes (lanesOf V) = some V := by
  rw [vecOfLanes_of_length_eq (length_lanesOf V)]
  refine congrArg some (eq_of_lanes_eq fun i hi => ?_)
  rw [← getD_lanesOf V hi]
  exact elem_assemble 128 _ 16 i hi (by omega)

/-- The lanes of an operand assembled from sixteen bytes are those bytes. -/
theorem lanesOf_assemble {bytes : List Byte} (h : bytes.length = 16) :
    lanesOf (assemble 128 (fun i => bytes.getD i 0) 16) = bytes := by
  refine List.ext_getElem (by rw [length_lanesOf, h]) fun i hi hi' => ?_
  have hlt : i < 16 := h ▸ hi'
  calc (lanesOf (assemble 128 (fun i => bytes.getD i 0) 16))[i]
      = lane (assemble 128 (fun i => bytes.getD i 0) 16) i := by simp [lanesOf]
    _ = bytes.getD i 0 := elem_assemble 128 _ 16 i hlt (by omega)
    _ = bytes[i] := List.getD_eq_getElem bytes 0 hi'

/-! The evaluation a request leaves on record. -/

/-- Wherever `r` stands next, one step answers it, consumes it alone, puts `e` on record and draws nothing. -/
def AlwaysRecords (r : Request) (e : Evaluation) : Prop :=
  ∀ (s : State) (rest : List Request), s.requests = r :: rest →
    ∃ t, step s = .next t ∧ t.requests = rest ∧ t.observed = s.observed ++ [e] ∧ t.draws = s.draws

/-- A defined request has one evaluation, the same in every state it is presented in (R36). -/
theorem alwaysRecords_of_inDomain {r : Request} (h : r.inDomain = true) : ∃ e, e.request = r ∧ AlwaysRecords r e := by
  obtain ⟨mask, hstep⟩ := step_of_inDomain h
  exact ⟨⟨r, mask⟩, rfl, fun s rest hs => ⟨_, hstep s rest hs, rfl, rfl, rfl⟩⟩

theorem run_succ_of_step {s t : State} (h : step s = .next t) (n : Nat) : core.run (n + 1) s = core.run n t := by
  have hcore : core.step s = .next t := h
  simp only [Host.Core.run, hcore]

/-- A run over such requests puts their evaluations on record in the order of the requests. -/
theorem run_of_alwaysRecords {rs : List Request} {es : List Evaluation} (h : List.Forall₂ AlwaysRecords rs es) :
    ∀ (s : State) (rest : List Request), s.requests = rs ++ rest →
      ∃ t, core.run rs.length s = .next t ∧ t.observed = s.observed ++ es ∧ t.draws = s.draws := by
  induction h with
  | nil => exact fun s _ _ => ⟨s, rfl, (List.append_nil _).symm, rfl⟩
  | cons hhead _ ih =>
    intro s rest hs
    obtain ⟨u, hstep, hreq, hobs, hdraws⟩ := hhead s _ hs
    obtain ⟨t, hrun, htobs, htdraws⟩ := ih u rest hreq
    refine ⟨t, (run_succ_of_step hstep _).trans hrun, ?_, htdraws.trans hdraws⟩
    rw [htobs, hobs, List.append_assoc, List.singleton_append]

theorem run_two_of_alwaysRecords {a b : Request} {ea eb : Evaluation} (ha : AlwaysRecords a ea)
    (hb : AlwaysRecords b eb) {s : State} {rest : List Request} (hs : s.requests = a :: b :: rest) :
    ∃ t, core.run 2 s = .next t ∧ t.observed = s.observed ++ [ea, eb] ∧ t.draws = s.draws :=
  run_of_alwaysRecords (.cons ha (.cons hb .nil)) s rest hs

/-! The obligations. -/

/-- Settles O10: assembling and reading lanes are inverse to each other on sixteen bytes. -/
theorem operandIsItsSixteenLanes : Obligations.OperandIsItsSixteenLanes := by
  unfold Obligations.OperandIsItsSixteenLanes
  exact ⟨vecOfLanes_lanesOf, fun _ h => ⟨_, vecOfLanes_of_length_eq h, lanesOf_assemble h⟩,
    fun _ h => vecOfLanes_of_length_ne h⟩

/-- Settles O45: the evaluation of each request is the same in both orders. -/
theorem definedEvaluationsCommute : Obligations.DefinedEvaluationsCommute := by
  unfold Obligations.DefinedEvaluationsCommute
  rintro s t a b rest ha hb hs rfl
  obtain ⟨ea, hea, hra⟩ := alwaysRecords_of_inDomain ha
  obtain ⟨eb, heb, hrb⟩ := alwaysRecords_of_inDomain hb
  obtain ⟨s', hrun, hobs, hdraws⟩ := run_two_of_alwaysRecords hra hrb hs
  obtain ⟨t', hrun', hobs', hdraws'⟩ :=
    run_two_of_alwaysRecords hrb hra (s := { s with requests := b :: a :: rest }) rfl
  exact ⟨s', t', ea, eb, hrun, hrun', hea, heb, hobs, hobs', hdraws, hdraws'⟩

/-- Settles O46: both presentations record the one evaluation of the request. -/
theorem repeatedDefinedEvaluationsAgree : Obligations.RepeatedDefinedEvaluationsAgree := by
  unfold Obligations.RepeatedDefinedEvaluationsAgree
  intro s r rest hr hs
  obtain ⟨e, he, hrec⟩ := alwaysRecords_of_inDomain hr
  obtain ⟨t, hrun, hobs, -⟩ := run_two_of_alwaysRecords hrec hrec hs
  exact ⟨t, e, hrun, hobs, he⟩

end Sys2Proof.Machine
end

section
/-! SUPPORT. The encoding and its use in a run (30_encoding.md): decoding and encoding as inverses, which requests decode,
the rows of the opcode map as selects, table words, and runs of legal requests, then the theorems that settle the family. -/

namespace Sys2Proof

/-! Decoding and encoding a request (R42, R43, R44). -/

@[simp] theorem decode_encode (i : Instr) : decode (encode i) = .ok i := by
  cases i <;> rfl

theorem decode_eq_ok_iff (r : Request) (i : Instr) : decode r = .ok i ↔ encode i = r := by
  refine ⟨fun h => ?_, fun h => h ▸ decode_encode i⟩
  rcases decode_cases r with ⟨j, hj, hr, -⟩ | ⟨herr, -⟩
  · rw [hj] at h
    cases h
    exact hr
  · rw [herr] at h
    cases h

theorem decode_of_legal {r : Request} (h : r.legal = true) : ∃ i, decode r = .ok i := by
  rcases decode_cases r with ⟨i, hi, -, -⟩ | ⟨-, hl⟩
  · exact ⟨i, hi⟩
  · rw [h] at hl
    cases hl

theorem decode_of_not_legal {r : Request} (h : r.legal = false) : decode r = .error (.reservedSelect r.sel) := by
  rcases decode_cases r with ⟨-, -, -, hl⟩ | ⟨herr, -⟩
  · rw [h] at hl
    cases hl
  · exact herr

theorem Request.legal_eq_false_iff (r : Request) : r.legal = false ↔ r.sel = 0#3 ∨ r.sel = 7#3 := by
  simp only [Request.legal, Bool.and_eq_false_iff, bne_eq_false_iff_eq]

/-- A word decodes to an instruction exactly when the two fields of the word are its request (R40). -/
theorem decodeWord_eq_ok_iff (w : ReqWord) (i : Instr) : decodeWord w = .ok i ↔ encode i = Request.ofWord w :=
  decode_eq_ok_iff (Request.ofWord w) i

/-! The rows of the opcode map (R42). -/

/-- The variant a row of the map selects: bits 130:128 of its match. -/
def OpcodeRow.sel (row : OpcodeRow) : Sel := row.pattern.extractLsb' 128 3

/-- A row's mask and match, written as words of two fields: all of the select, none of the operand. -/
theorem row_eq_fields :
    ∀ row ∈ opcodeRows, row.mask = (⟨7#3, 0⟩ : Request).toWord ∧ row.pattern = (⟨row.sel, 0⟩ : Request).toWord := by
  decide

theorem Request.toWord_injective {r r' : Request} (h : r.toWord = r'.toWord) : r = r' := by
  rw [← Request.ofWord_toWord r, h, Request.ofWord_toWord]

/-- Under the select's mask a written word keeps its select and loses its operand. -/
theorem Request.toWord_and_selMask (r : Request) :
    r.toWord &&& (⟨7#3, 0⟩ : Request).toWord = (⟨r.sel, 0⟩ : Request).toWord := by
  calc r.toWord &&& (⟨7#3, 0⟩ : Request).toWord
      = (r.sel &&& BitVec.allOnes 3) ++ (r.vec &&& 0#128) := BitVec.and_append
    _ = r.sel ++ 0#128 := by rw [BitVec.and_allOnes, BitVec.and_zero]

theorem fits_iff_sel_eq {row : OpcodeRow} (hrow : row ∈ opcodeRows) (w : ReqWord) :
    row.fits w = true ↔ (Request.ofWord w).sel = row.sel := by
  obtain ⟨hmask, hpattern⟩ := row_eq_fields row hrow
  rw [OpcodeRow.fits, beq_iff_eq, hmask, hpattern, ← Request.toWord_ofWord w, Request.toWord_and_selMask,
    Request.ofWord_toWord]
  exact ⟨fun h => congrArg Request.sel (Request.toWord_injective h), fun h => by rw [h]⟩

/-- No row selects a reserved value (R44). -/
theorem legal_of_sel_eq_row_sel {row : OpcodeRow} (hrow : row ∈ opcodeRows) {r : Request} (h : r.sel = row.sel) :
    r.legal = true := by
  have hrows : ∀ row ∈ opcodeRows, row.sel ≠ 0#3 ∧ row.sel ≠ 7#3 := by decide
  simpa [Request.legal, h] using hrows row hrow

theorem rowOfTheMap (i : Instr) : Laws.RowOfTheMap.Statement i := by
  cases i with
  | packVariant1 V => exact Laws.RowOfTheMap.packVariant1 V
  | packVariant2 V => exact Laws.RowOfTheMap.packVariant2 V
  | packVariant3 V => exact Laws.RowOfTheMap.packVariant3 V
  | packVariant4 V => exact Laws.RowOfTheMap.packVariant4 V
  | packVariant5 V => exact Laws.RowOfTheMap.packVariant5 V
  | packVariant6 V => exact Laws.RowOfTheMap.packVariant6 V

/-- The mnemonic and the select name the same row of the map. -/
theorem mnemonic_eq_iff_sel_eq {row : OpcodeRow} (hrow : row ∈ opcodeRows) (i : Instr) :
    mnemonic i = row.mnemonic ↔ (encode i).sel = row.sel := by
  have hrows : ∀ a ∈ opcodeRows, ∀ b ∈ opcodeRows, a.mnemonic = b.mnemonic ↔ a.sel = b.sel := by decide
  obtain ⟨own, hown, hmnemonic, hsel, -⟩ := rowOfTheMap i
  rw [← hmnemonic, hsel]
  exact hrows own hown row hrow

/-! Table words (R45, log 11). -/

/-- The number of a written word, read at its own width or wider, writes down the request. -/
theorem requestOfTableWord_toNat {nbits : Nat} (h : 131 ≤ nbits) (r : Request) :
    requestOfTableWord nbits r.toWord.toNat = some r := by
  have hlt : r.toWord.toNat < 2 ^ nbits := r.toWord.isLt.trans_le (Nat.pow_le_pow_right (by decide) h)
  simp only [requestOfTableWord, Nat.mod_eq_of_lt hlt]
  rw [if_pos r.toWord.isLt, BitVec.ofNat_toNat, BitVec.setWidth_eq, Request.ofWord_toWord]

theorem requestOfTableWord_of_le {nbits w : Nat} (h : 2 ^ 131 ≤ w % 2 ^ nbits) : requestOfTableWord nbits w = none :=
  if_neg (Nat.not_lt.mpr h)

/-- A table word decodes to an instruction exactly when it writes down the instruction's request. -/
theorem decodeTableWord_eq_some_iff {nbits w : Nat} {i : Instr} :
    decodeTableWord nbits w = some i ↔ requestOfTableWord nbits w = some (encode i) := by
  constructor
  · intro h
    unfold decodeTableWord at h
    split at h
    · cases h
    · next r hr =>
      split at h
      · next j hj =>
        cases h
        rw [hr, (decode_eq_ok_iff r i).mp hj]
      · cases h
  · intro h
    simp only [decodeTableWord, h, decode_encode]

/-! The obligations about the encoding. -/

/-- Settles O1: the fields of the written word are the instruction's request, and decoding undoes encoding. -/
theorem decodeOfEncodedWordIsTheInstruction : Obligations.DecodeOfEncodedWordIsTheInstruction := by
  unfold Obligations.DecodeOfEncodedWordIsTheInstruction
  exact fun i => (decodeWord_eq_ok_iff _ i).mpr (Request.ofWord_toWord (encode i)).symm

/-- Settles O2: writing down the fields of a word gives the word. -/
theorem encodeOfDecodedWordIsTheWord : Obligations.EncodeOfDecodedWordIsTheWord := by
  unfold Obligations.EncodeOfDecodedWordIsTheWord
  intro w i h
  rw [encodeWord, (decodeWord_eq_ok_iff w i).mp h, Request.toWord_ofWord]

/-- Settles O3: the two selects are the ones that make a request illegal, and the decoder's two answers follow that. -/
theorem reservedExactlyWhenSelectIsZeroOrSeven : Obligations.ReservedExactlyWhenSelectIsZeroOrSeven := by
  unfold Obligations.ReservedExactlyWhenSelectIsZeroOrSeven
  intro w
  have hlegal := (Request.ofWord w).legal_eq_false_iff
  exact ⟨fun h => decode_of_not_legal (hlegal.mpr h),
    fun h => decode_of_legal (Bool.not_eq_false _ ▸ mt hlegal.mp h)⟩

/-- Settles O4: fitting a row and decoding to its mnemonic both say that the word's select is the row's. -/
theorem wordFitsARowExactlyWhenItDecodesToIt : Obligations.WordFitsARowExactlyWhenItDecodesToIt := by
  unfold Obligations.WordFitsARowExactlyWhenItDecodesToIt
  refine ⟨by decide, by decide, fun w row hrow => ?_⟩
  rw [fits_iff_sel_eq hrow]
  constructor
  · intro hsel
    obtain ⟨i, hi⟩ := decode_of_legal (legal_of_sel_eq_row_sel hrow hsel)
    have hreq := (decodeWord_eq_ok_iff w i).mp hi
    refine ⟨i, hi, (mnemonic_eq_iff_sel_eq hrow i).mpr (hreq ▸ hsel), ?_⟩
    rw [← encode_vec, hreq, Request.ofWord]
  · rintro ⟨i, hi, hmnemonic, -⟩
    rw [← (decodeWord_eq_ok_iff w i).mp hi]
    exact (mnemonic_eq_iff_sel_eq hrow i).mp hmnemonic

/-- Settles O6: a written word has 131 bits, and a number that needs more is no request. -/
theorem tableWordDecodesAsTheWrittenWord : Obligations.TableWordDecodesAsTheWrittenWord := by
  unfold Obligations.TableWordDecodesAsTheWrittenWord
  refine ⟨fun i _ h => decodeTableWord_eq_some_iff.mpr (requestOfTableWord_toNat h (encode i)), fun nbits w h => ?_⟩
  simp only [decodeTableWord, requestOfTableWord_of_le h]

end Sys2Proof

namespace Sys2Proof.Machine

/-! Steps and runs over legal requests (R131). -/

@[simp] theorem State.driveResult_requests (s : State) (sel : Sel) (V : LaneVector) (res : Result) :
    (s.driveResult sel V res).requests = s.requests := by
  cases res <;> rfl

theorem step_of_legal {s : State} {r : Request} {rest : List Request} (hs : s.requests = r :: rest)
    (h : r.legal = true) : ∃ t, step s = .next t ∧ t.requests = rest := by
  obtain ⟨i, hi⟩ := decode_of_legal h
  rw [step_of_decode hs hi, exec_eq, recordNext_next]
  exact ⟨_, rfl, by simp⟩

theorem step_of_not_legal {s : State} {r : Request} {rest : List Request} (hs : s.requests = r :: rest)
    (h : r.legal = false) : step s = .refused (.reservedSelect r.sel) := by
  rcases step_cons s r rest hs with ⟨-, -, -, hlegal, -⟩ | ⟨-, hstep⟩
  · rw [h] at hlegal
    cases hlegal
  · exact hstep

theorem run_succ_of_step_refused {s : State} {e : Refusal} (h : step s = .refused e) (n : Nat) :
    core.run (n + 1) s = .refused e := by
  have hcore : core.step s = .refused e := h
  simp only [Host.Core.run, hcore]

/-- A run gets past a good prefix of the script, and goes on from a state that holds the rest of it. -/
theorem run_past_goodRun {rs : List Request} (h : goodRun rs) :
    ∀ (s : State) (rest : List Request), s.requests = rs ++ rest →
      ∃ t, t.requests = rest ∧ ∀ n, core.run (rs.length + n) s = core.run n t := by
  induction rs with
  | nil => exact fun s rest hs => ⟨s, hs, fun n => by rw [List.length_nil, Nat.zero_add]⟩
  | cons r rs ih =>
    intro s rest hs
    obtain ⟨hr, hrs⟩ := List.forall_mem_cons.mp h
    obtain ⟨u, hstep, hreq⟩ := step_of_legal hs hr
    obtain ⟨t, ht, hrun⟩ := ih hrs u rest hreq
    refine ⟨t, ht, fun n => ?_⟩
    rw [List.length_cons, Nat.succ_add, run_succ_of_step hstep, hrun]

/-! The obligations about steps and runs. -/

/-- Settles O51: the run gets to the reserved request, and the step there is refused. -/
theorem runWithAReservedRequestStaysRefused : Obligations.RunWithAReservedRequestStaysRefused := by
  unfold Obligations.RunWithAReservedRequestStaysRefused
  intro rs rest r s k hgood hr hs
  obtain ⟨t, ht, hrun⟩ := run_past_goodRun hgood s (r :: rest) hs
  rw [Nat.add_assoc, hrun, Nat.add_comm 1 k]
  exact run_succ_of_step_refused (step_of_not_legal ht hr) k

/-- Settles O41: the placed request is the head of the script, and presenting it leaves the script as it was. -/
theorem stepRunsThePlacedTableWord : Obligations.StepRunsThePlacedTableWord := by
  unfold Obligations.StepRunsThePlacedTableWord
  intro s nbits w i h
  have hplaced : s.withFetchWord nbits w = { s with requests := encode i :: s.requests } := by
    rw [State.withFetchWord, decodeTableWord_eq_some_iff.mp h, State.withNextRequest_some]
  rw [hplaced, step_of_decode rfl (decode_encode i), ← encode_vec]
  rfl

end Sys2Proof.Machine
end

section
/-! SUPPORT. The masks of the six variants (41_weighted_sum.md to 45_sign_interleave.md): each is a sum in which every
mask bit comes from one term alone, so on the variant's defined domain it is the reference mask. -/

namespace Sys2Proof.Machine

variable {w : Nat}

/-! Sums in which each bit has one owner. -/

/-- A sum in which bit `b` comes from term `owner b` alone has that term's bit there, and no carry. -/
theorem getLsbD_hsum_of_owner (X : Elems w) (n : Nat) (p : Nat → Bool) (owner : Nat → Nat)
    (hX : ∀ j b, j < n → b < w → (X j).getLsbD b = (decide (owner b = j) && p b)) {b : Nat} (hb : b < w)
    (hn : owner b < n) : (hsum X n).getLsbD b = p b := by
  have hdisjoint : ∀ i j b, i < n → j < n → i ≠ j →
      ¬ ((X i).getLsbD b = true ∧ (X j).getLsbD b = true) := by
    rintro i j b hi hj hij ⟨hbi, hbj⟩
    have hb := BitVec.lt_of_getLsbD hbi
    simp only [hX _ b hi hb, hX _ b hj hb, Bool.and_eq_true, decide_eq_true_eq] at hbi hbj
    exact hij (hbi.1.symm.trans hbj.1)
  rw [getLsbD_hsum_of_disjoint X n hdisjoint, Bool.eq_iff_iff, List.any_eq_true]
  constructor
  · rintro ⟨j, hj, hbit⟩
    rw [hX j b (List.mem_range.mp hj) hb, Bool.and_eq_true] at hbit
    exact hbit.2
  · intro hp
    exact ⟨owner b, List.mem_range.mpr hn, by simp [hX _ b hn hb, hp]⟩

/-- Two selected bits are equal when the selections agree and, where they hold, the positions do. -/
theorem decide_and_congr (p : Nat → Bool) {P Q : Prop} [Decidable P] [Decidable Q] {a b : Nat} (hPQ : P ↔ Q)
    (hab : P → a = b) : (decide P && p a) = (decide Q && p b) := by
  by_cases h : P
  · rw [hab h, decide_eq_decide.mpr hPQ]
  · rw [decide_eq_false h, decide_eq_false (mt hPQ.mpr h), Bool.false_and, Bool.false_and]

/-! The weights (R61). -/

theorem WT_eq_twoPow : ∀ i, i < 16 → WT i = BitVec.twoPow 8 (i % 8) := by
  decide

/-- The weights of those of the eight indexes that satisfy `p`. -/
def chosenWeights (p : Nat → Bool) : Elems 8 := fun j => if p j then WT j else 0#8

theorem toNat_chosenWeights (p : Nat → Bool) {j : Nat} (hj : j < 8) :
    (chosenWeights p j).toNat = 2 ^ j * (p j).toNat := by
  have hWT : ∀ j, j < 8 → (WT j).toNat = 2 ^ j := by decide
  rw [chosenWeights]
  cases p j
  · simp
  · simp [hWT j hj]

/-- The chosen weights add to the byte whose bit `b` says whether index `b` was chosen. -/
theorem getLsbD_hsum_chosenWeights (p : Nat → Bool) {b : Nat} (hb : b < 8) :
    (hsum (chosenWeights p) 8).getLsbD b = p b := by
  refine getLsbD_hsum_of_owner _ 8 p id (fun j b hj hb => ?_) hb hb
  rw [chosenWeights, WT_eq_twoPow j (by omega), Nat.mod_eq_of_lt hj]
  by_cases h : b = j
  · subst h
    cases p b <;> simp [hb]
  · cases p j <;> simp [h, Ne.symm h]

/-- Two bytes that hold the sign bits of the two halves of an operand are its reference mask (R51). -/
theorem hsum_append_hsum_eq_REF {V : LaneVector} {hi lo : Byte}
    (hhi : hi = hsum (chosenWeights fun j => signBit V (8 + j)) 8)
    (hlo : lo = hsum (chosenWeights (signBit V)) 8) : hi ++ lo = REF V := by
  apply BitVec.eq_of_getLsbD_eq
  intro b hb
  rw [getLsbD_REF V b hb, BitVec.getLsbD_append, hhi, hlo]
  by_cases h : b < 8
  · rw [if_pos h, getLsbD_hsum_chosenWeights _ h]
  · rw [if_neg h, getLsbD_hsum_chosenWeights _ (by omega), Nat.add_sub_of_le (by omega)]

theorem toNat_byte_zero {n : Nat} (X : BitVec n) : (byte X 0).toNat = X.toNat % 2 ^ 8 := by
  simp [byte, elem, BitVec.extractLsb'_toNat]

/-! Variants 1 and 2 (R60 to R63). -/

theorem weighted_le_WT (V : LaneVector) (i : Nat) : (weighted V i).toNat ≤ (WT i).toNat := by
  rw [weighted, andElems_apply, BitVec.toNat_and]
  exact Nat.and_le_right

theorem toNat_sum16 (V : LaneVector) (j : Nat) :
    (sum16 V j).toNat = (weighted V (2 * j)).toNat + (weighted V (2 * j + 1)).toNat :=
  toNat_paddl (by decide) (weighted V) j

theorem toNat_sum32 (V : LaneVector) (j : Nat) :
    (sum32 V j).toNat = (sum16 V (2 * j)).toNat + (sum16 V (2 * j + 1)).toNat :=
  toNat_paddl (by decide) (sum16 V) j

theorem toNat_sum64_eq_add (V : LaneVector) (j : Nat) :
    (sum64 V j).toNat = (sum32 V (2 * j)).toNat + (sum32 V (2 * j + 1)).toNat :=
  toNat_paddl (by decide) (sum32 V) j

/-- The sum of a half is the exact sum of its eight weighted lanes, well formed or not (R63). -/
theorem toNat_sum64 (V : LaneVector) (h : Nat) :
    (sum64 V h).toNat = ((List.range 8).map fun j => (weighted V (8 * h + j)).toNat).sum := by
  simp only [toNat_sum64_eq_add, toNat_sum32, toNat_sum16, List.range_succ, List.range_zero, List.nil_append,
    List.map_append, List.map_cons, List.map_nil, List.sum_append, List.sum_cons, List.sum_nil]
  ring_nf

/-- The sum of a half stays in its low byte, for the eight weights add to 255 (R63). -/
theorem toNat_sum64_le (V : LaneVector) {h : Nat} (hh : h < 2) : (sum64 V h).toNat ≤ 255 := by
  have hweights : ∀ h, h < 2 → ((List.range 8).map fun j => (WT (8 * h + j)).toNat).sum = 255 := by decide
  rw [toNat_sum64, ← hweights h hh]
  exact List.sum_le_sum fun j _ => weighted_le_WT V _

/-- The low byte of a half's sum is the same sum made in byte arithmetic. -/
theorem byte_sum64 (V : LaneVector) (h : Nat) : byte (sum64 V h) 0 = hsum (fun j => weighted V (8 * h + j)) 8 := by
  apply BitVec.eq_of_toNat_eq
  rw [toNat_byte_zero, toNat_hsum, toNat_sum64]

theorem weighted_of_wf {V : LaneVector} (h : wf V = true) {i : Nat} (hi : i < 16) :
    weighted V i = if signBit V i then WT i else 0#8 := by
  rw [weighted, andElems_apply, lane_of_wf h i hi]
  cases signBit V i
  · exact BitVec.zero_and
  · exact BitVec.allOnes_and

theorem WT_add_eight : ∀ j, j < 8 → WT (8 + j) = WT j := by
  decide

theorem hsum_congr {X Y : Elems w} {n : Nat} (h : ∀ j, j < n → X j = Y j) : hsum X n = hsum Y n := by
  rw [hsum_eq_sum, hsum_eq_sum]
  exact congrArg List.sum (List.map_congr_left fun j hj => h j (List.mem_range.mp hj))

/-- Variant 1 drives the reference mask of a well-formed operand (R60). -/
theorem packMask1_of_wf {V : LaneVector} (h : wf V = true) : packMask1 V = REF V := by
  apply hsum_append_hsum_eq_REF
  · rw [byte_sum64]
    refine hsum_congr fun j hj => ?_
    rw [weighted_of_wf h (by omega), Nat.mul_one, WT_add_eight j hj, chosenWeights]
  · rw [byte_sum64]
    refine hsum_congr fun j hj => ?_
    rw [weighted_of_wf h (by omega), Nat.mul_zero, Nat.zero_add, chosenWeights]

/-- The two combines give the same sixteen bits of every operand: the low sum has no bit above its byte (R62). -/
theorem packMask2_eq_packMask1 (V : LaneVector) : packMask2 V = packMask1 V := by
  have h0 := toNat_sum64_le V (h := 0) (by decide)
  have h1 := toNat_sum64_le V (h := 1) (by decide)
  apply BitVec.eq_of_toNat_eq
  rw [packMask2, packMask1, combined2, BitVec.extractLsb'_toNat, BitVec.toNat_add, BitVec.toNat_shiftLeft,
    BitVec.toNat_append, ← Nat.shiftLeft_add_eq_or_of_lt (BitVec.isLt _), toNat_byte_zero, toNat_byte_zero]
  simp only [Nat.shiftLeft_eq, Nat.shiftRight_eq_div_pow]
  omega

/-! Variant 3 (R70 to R72). -/

theorem toNat_signBits3 (V : LaneVector) (i : Nat) : (signBits3 V i).toNat = (signBit V i).toNat := by
  have hlt := (lane V i).isLt
  rw [signBits3, shrElems_apply, signShift, signBit, BitVec.getLsbD, Nat.toNat_testBit, BitVec.toNat_ushiftRight,
    Nat.shiftRight_eq_div_pow]
  omega

/-- One stage of the doubling tree on a wide element: the upper half is added to itself moved down by `s`, next to the
lower half, which fits below bit `s` and is shifted out (R71, R72). -/
theorem toNat_sracc_append (hi lo : BitVec w) {s : Nat} (hs : s ≤ w) (hlo : lo.toNat < 2 ^ s)
    (hfit : (2 ^ w + 2 ^ (w - s)) * hi.toNat + lo.toNat < 2 ^ (w + w)) :
    (sracc (hi ++ lo) s).toNat = (2 ^ w + 2 ^ (w - s)) * hi.toNat + lo.toNat := by
  have hpow : 2 ^ w = 2 ^ s * 2 ^ (w - s) := by rw [← Nat.pow_add, Nat.add_sub_of_le hs]
  have happend : (hi ++ lo).toNat = 2 ^ w * hi.toNat + lo.toNat := by
    rw [BitVec.toNat_append, ← Nat.shiftLeft_add_eq_or_of_lt lo.isLt, Nat.shiftLeft_eq, Nat.mul_comm]
  have hdiv : (2 ^ w * hi.toNat + lo.toNat) / 2 ^ s = 2 ^ (w - s) * hi.toNat := by
    rw [hpow, Nat.mul_assoc, Nat.mul_add_div (Nat.two_pow_pos s), Nat.div_eq_of_lt hlo, Nat.add_zero]
  have hsum : 2 ^ w * hi.toNat + lo.toNat + 2 ^ (w - s) * hi.toNat =
      (2 ^ w + 2 ^ (w - s)) * hi.toNat + lo.toNat := by ring
  rw [toNat_sracc, happend, hdiv, hsum, Nat.mod_eq_of_lt hfit]

theorem toNat_acc16 (V : LaneVector) {j : Nat} (hj : j < 8) :
    (acc16 V j).toNat = 258 * (signBit V (2 * j + 1)).toNat + (signBit V (2 * j)).toNat := by
  have hodd := toNat_signBits3 V (2 * j + 1)
  have heven := toNat_signBits3 V (2 * j)
  have hodd_le := Bool.toNat_le (signBit V (2 * j + 1))
  have heven_le := Bool.toNat_le (signBit V (2 * j))
  rw [acc16, signVec3, elem16_assemble 128 _ 16 j (by omega) (by omega), stride16,
    toNat_sracc_append _ _ (by decide)]
  all_goals omega

theorem toNat_acc16_le (V : LaneVector) {j : Nat} (hj : j < 8) : (acc16 V j).toNat ≤ 0x0103 := by
  have hodd := Bool.toNat_le (signBit V (2 * j + 1))
  have heven := Bool.toNat_le (signBit V (2 * j))
  rw [toNat_acc16 V hj]
  omega

theorem toNat_acc32 (V : LaneVector) {j : Nat} (hj : j < 4) :
    (acc32 V j).toNat = 65540 * (acc16 V (2 * j + 1)).toNat + (acc16 V (2 * j)).toNat := by
  have hodd := toNat_acc16_le V (j := 2 * j + 1) (by omega)
  have heven := toNat_acc16_le V (j := 2 * j) (by omega)
  rw [acc32, accVec16, elem32_eq_halves, elem_assemble 128 _ 8 _ (by omega) (by omega),
    elem_assemble 128 _ 8 _ (by omega) (by omega), stride32, toNat_sracc_append _ _ (by decide)]
  all_goals omega

theorem toNat_acc32_le (V : LaneVector) {j : Nat} (hj : j < 4) : (acc32 V j).toNat ≤ 0x0103050F := by
  have hodd := toNat_acc16_le V (j := 2 * j + 1) (by omega)
  have heven := toNat_acc16_le V (j := 2 * j) (by omega)
  rw [toNat_acc32 V hj]
  omega

theorem toNat_acc64 (V : LaneVector) {h : Nat} (hh : h < 2) :
    (acc64 V h).toNat = 4294967312 * (acc32 V (2 * h + 1)).toNat + (acc32 V (2 * h)).toNat := by
  have hodd := toNat_acc32_le V (j := 2 * h + 1) (by omega)
  have heven := toNat_acc32_le V (j := 2 * h) (by omega)
  rw [acc64, accVec32, elem64_eq_halves, elem_assemble 128 _ 4 _ (by omega) (by omega),
    elem_assemble 128 _ 4 _ (by omega) (by omega), stride64, toNat_sracc_append _ _ (by decide)]
  all_goals omega

/-- The low byte of each 64-bit element holds the half's eight sign bits in order (R72). -/
theorem byte_acc64 (V : LaneVector) {h : Nat} (hh : h < 2) :
    byte (acc64 V h) 0 = hsum (chosenWeights fun j => signBit V (8 * h + j)) 8 := by
  have hsum : ((List.range 8).map fun j => (chosenWeights (fun j => signBit V (8 * h + j)) j).toNat).sum =
      ((List.range 8).map fun j => 2 ^ j * (signBit V (8 * h + j)).toNat).sum :=
    congrArg List.sum (List.map_congr_left fun j hj => toNat_chosenWeights _ (List.mem_range.mp hj))
  apply BitVec.eq_of_toNat_eq
  rw [toNat_byte_zero, toNat_hsum, hsum, toNat_acc64 V hh, toNat_acc32 V (by omega), toNat_acc32 V (by omega),
    toNat_acc16 V (by omega), toNat_acc16 V (by omega), toNat_acc16 V (by omega), toNat_acc16 V (by omega)]
  simp only [List.range_succ, List.range_zero, List.nil_append,
    List.map_append, List.map_cons, List.map_nil, List.sum_append, List.sum_cons, List.sum_nil]
  ring_nf
  omega

/-- Variant 3 drives the reference mask of every operand (R70). -/
theorem packMask3_eq_REF (V : LaneVector) : packMask3 V = REF V := by
  apply hsum_append_hsum_eq_REF
  · exact byte_acc64 V (h := 1) (by decide)
  · simpa using byte_acc64 V (h := 0) (by decide)

/-! Variant 4 (R80 to R82). -/

/-- Each byte's sign bit is placed at the byte's own position (R82). -/
theorem placed4_eq (H : Elems 8) {j : Nat} (hj : j < 8) :
    placed4 H j = chosenWeights (fun j => (H j).getLsbD 7) j := by
  have hset : ∀ j, j < 8 → vshiftElems (fun _ => 0x80#8) SH4 j = WT j := by decide
  have hclear : ∀ j, j < 8 → vshiftElems (fun _ => 0x00#8) SH4 j = 0#8 := by decide
  have hmask : isolated4 H j = if (H j).getLsbD 7 then 0x80#8 else 0x00#8 := BitVec.and_twoPow (H j) 7
  rw [chosenWeights, ← hset j hj, ← hclear j hj, placed4]
  simp only [vshiftElems, hmask]
  cases (H j).getLsbD 7 <;> rfl

/-- Folding eight bytes in pairs three times is summing them (R81). -/
theorem halfMask_eq_hsum (H : Elems 8) : halfMask H = hsum (placed4 H) 8 := by
  simp [halfMask, fold2, fold4, BitVec.add_assoc]

theorem halfMask_eq_chosenWeights (H : Elems 8) :
    halfMask H = hsum (chosenWeights fun j => (H j).getLsbD 7) 8 := by
  rw [halfMask_eq_hsum]
  exact hsum_congr fun j hj => placed4_eq H hj

theorem packMask4_eq_append (V : LaneVector) : packMask4 V = halfMask (hi8 (lane V)) ++ halfMask (lo8 (lane V)) := by
  apply BitVec.eq_of_getLsbD_eq
  intro b hb
  rw [packMask4, BitVec.getLsbD_or, BitVec.getLsbD_shiftLeft, BitVec.getLsbD_setWidth, BitVec.getLsbD_setWidth,
    BitVec.getLsbD_append]
  by_cases h : b < 8
  · simp [h, hb]
  · have hlt : b - 8 < 16 := by omega
    simp [h, hb, hlt, BitVec.getLsbD_of_ge _ _ (Nat.le_of_not_lt h)]

/-- Variant 4 drives the reference mask of every operand (R80). -/
theorem packMask4_eq_REF (V : LaneVector) : packMask4 V = REF V := by
  rw [packMask4_eq_append]
  exact hsum_append_hsum_eq_REF (halfMask_eq_chosenWeights _) (halfMask_eq_chosenWeights _)

/-! Variant 5 (R90 to R92). -/

theorem OFF5_eq : ∀ k : Nat, k < 8 → OFF5 k = 2 * (k : Int) - 7 := by
  decide

theorem getLsbD_pairMask : ∀ b, b < 16 → pairMask.getLsbD b = decide (b = 7 ∨ b = 8) := by
  decide

/-- The word mask keeps the top bit of the even lane and the bottom bit of the odd one (R91). -/
theorem getLsbD_pairs5 (V : LaneVector) (k b : Nat) :
    (pairs5 V k).getLsbD b = (decide (b = 7 ∨ b = 8) && V.getLsbD (16 * k + b)) := by
  by_cases hb : b < 16
  · rw [pairs5, andElems_apply, BitVec.getLsbD_and, getLsbD_pairMask b hb, words5, getLsbD_elem_of_lt V k hb,
      Bool.and_comm]
  · have hno : ¬ (b = 7 ∨ b = 8) := by omega
    rw [BitVec.getLsbD_of_ge _ _ (Nat.le_of_not_lt hb), decide_eq_false hno, Bool.false_and]

/-- A table shift moves bit `b - T j` to bit `b` (R16). -/
theorem getLsbD_vshiftElems (X : Elems w) (T : Nat → Int) (j : Nat) {b : Nat} (hb : b < w) :
    (vshiftElems X T j).getLsbD b = (decide (T j ≤ b) && (X j).getLsbD (b - T j).toNat) := by
  by_cases h : 0 ≤ T j
  · rw [getLsbD_vshiftElems_of_nonneg X T j b hb h]
    exact decide_and_congr (X j).getLsbD (by omega) (by omega)
  · have hpos : b + (-T j).toNat = (b - T j).toNat := by omega
    have hle : T j ≤ b := by omega
    rw [vshiftElems_of_neg X T j (by omega), BitVec.getLsbD_ushiftRight, Nat.add_comm, hpos, decide_eq_true hle,
      Bool.true_and]

/-- Word `k` is moved to bits `2k` and `2k + 1` (R92). -/
theorem getLsbD_spread5 (V : LaneVector) {k b : Nat} (hk : k < 8) (hb : b < 16) :
    (spread5 V k).getLsbD b = (decide (b / 2 = k) && V.getLsbD (16 * (b / 2) + 7 + b % 2)) := by
  rw [spread5, getLsbD_vshiftElems _ _ k hb, getLsbD_pairs5, ← Bool.and_assoc, ← Bool.decide_and, OFF5_eq k hk]
  exact decide_and_congr V.getLsbD (by omega) (by omega)

/-- Bit `b` of variant 5's sum comes from word `b / 2` alone (R92). -/
theorem getLsbD_packMask5 (V : LaneVector) {b : Nat} (hb : b < 16) :
    (packMask5 V).getLsbD b = V.getLsbD (16 * (b / 2) + 7 + b % 2) :=
  getLsbD_hsum_of_owner _ 8 (fun b => V.getLsbD (16 * (b / 2) + 7 + b % 2)) (· / 2)
    (fun _ _ hk hb => getLsbD_spread5 V hk hb) hb (by omega)

/-- Variant 5 drives the reference mask of a well-formed operand: the bit it takes from an odd lane is the lane's sign
bit there (R90). -/
theorem packMask5_of_wf {V : LaneVector} (h : wf V = true) : packMask5 V = REF V := by
  apply BitVec.eq_of_getLsbD_eq
  intro b hb
  rw [getLsbD_packMask5 V hb, getLsbD_REF V b hb]
  rcases Nat.mod_two_eq_zero_or_one b with heven | hodd
  · have hpos : 16 * (b / 2) + 7 + b % 2 = 8 * b + 7 := by omega
    rw [hpos, signBit_eq]
  · have hpos : 16 * (b / 2) + 7 + b % 2 = 8 * b + 0 := by omega
    rw [hpos, ← getLsbD_elem_of_lt V b (by decide : 0 < 8)]
    exact getLsbD_lane_of_wf h b 0 hb (by decide)

/-! Variant 6 (R100 to R102). -/

/-- On every operand a lane's weight is kept exactly when its sign bit is set (R101). -/
theorem weighted6_eq (V : LaneVector) (i : Nat) : weighted6 V i = if signBit V i then WT i else 0#8 := by
  rw [weighted6, andElems_apply, filled6, signShift, sarElems_seven, signBit]
  cases (lane V i).getLsbD 7
  · exact BitVec.zero_and
  · exact BitVec.allOnes_and

theorem words6_eq (V : LaneVector) {j : Nat} (hj : j < 8) :
    words6 V j = weighted6 V (8 + j) ++ weighted6 V j := by
  rw [words6, elem16_assemble 128 _ 16 j (by omega) (by omega), zipped6, zip8_odd, zip8_even, hi8, lo8]

theorem getLsbD_weighted6 (V : LaneVector) {i b : Nat} (hi : i < 16) (hb : b < 8) :
    (weighted6 V i).getLsbD b = (decide (b = i % 8) && signBit V i) := by
  rw [weighted6_eq, WT_eq_twoPow i hi]
  cases signBit V i
  · simp
  · simp [hb]

/-- Word `j` has the sign bits of lanes `j` and `8 + j`, each at its lane's own position (R102). -/
theorem getLsbD_words6 (V : LaneVector) {j b : Nat} (hj : j < 8) (hb : b < 16) :
    (words6 V j).getLsbD b = (decide (b % 8 = j) && signBit V b) := by
  rw [words6_eq V hj, BitVec.getLsbD_append]
  split
  all_goals
    rw [getLsbD_weighted6 V (by omega) (by omega)]
    exact decide_and_congr (signBit V) (by omega) (by omega)

/-- Variant 6 drives the reference mask of every operand (R100). -/
theorem packMask6_eq_REF (V : LaneVector) : packMask6 V = REF V := by
  apply BitVec.eq_of_getLsbD_eq
  intro b hb
  rw [getLsbD_REF V b hb]
  exact getLsbD_hsum_of_owner _ 8 (signBit V) (· % 8) (fun _ _ hj hb => getLsbD_words6 V hj hb) hb
    (Nat.mod_lt b (by decide))

end Sys2Proof.Machine
end

section
/-! SUPPORT. The contract of the block (40_contract.md): on the defined domain every variant, and so every step, answers
with the zero-extended reference mask, then the theorems that settle the family. -/

namespace Sys2Proof.Machine

/-! What a variant makes of its operand (R50, R54, R55). -/

/-- On the defined domain every variant's result is the zero-extended reference mask (R51). -/
theorem resultOf_of_wellFormed {i : Instr} (h : i.wellFormed = true) :
    resultOf i = .defined (zextOut (REF i.vec)) := by
  cases i with
  | packVariant1 V =>
    have hwf : wf V = true := h
    rw [resultOf, packVariant1, if_pos hwf, packMask1_of_wf hwf, Instr.vec]
  | packVariant2 V =>
    have hwf : wf V = true := h
    rw [resultOf, packVariant2, if_pos hwf, packMask2_eq_packMask1, packMask1_of_wf hwf, Instr.vec]
  | packVariant3 V => rw [resultOf, packVariant3, packMask3_eq_REF, Instr.vec]
  | packVariant4 V => rw [resultOf, packVariant4, packMask4_eq_REF, Instr.vec]
  | packVariant5 V =>
    have hwf : wf V = true := h
    rw [resultOf, packVariant5, if_pos hwf, packMask5_of_wf hwf, Instr.vec]
  | packVariant6 V => rw [resultOf, packVariant6, packMask6_eq_REF, Instr.vec]

theorem resultOf_eq_undefined_iff (i : Instr) : resultOf i = .undefined ↔ i.wellFormed = false := by
  rw [← Bool.not_eq_true, ← resultOf_defined_iff]
  cases resultOf i <;> simp

theorem wellFormed_of_wf {i : Instr} (h : wf i.vec = true) : i.wellFormed = true := by
  rw [Instr.wellFormed]
  split
  · exact h
  · rfl

theorem wellFormed_of_signBitPacker {i : Instr} (h : i.capability = .signBitPacker) : i.wellFormed = true := by
  rw [Instr.wellFormed, h]

/-- The operands outside a variant's domain are the malformed ones of variants 1, 2 and 5 (R53, R54). -/
theorem wellFormed_eq_false_iff (i : Instr) :
    i.wellFormed = false ↔
      ((encode i).sel = 1 ∨ (encode i).sel = 2 ∨ (encode i).sel = 5) ∧ wf i.vec = false := by
  cases i <;> simp [Instr.wellFormed, Instr.capability, Instr.vec, encode]

/-! An instruction and a step on the defined domain. -/

theorem exec_eq_drive_REF {i : Instr} (h : i.wellFormed = true) (s : State) :
    exec i s = .next (s.drive (zextOut (REF i.vec))) := by
  rw [exec_eq, resultOf_of_wellFormed h, State.driveResult_defined]

/-- The contract as the statements use it: in its defined domain an instruction goes on with `zext(REF)`. -/
theorem exec_mask_of_wellFormed {i : Instr} (h : i.wellFormed = true) (s : State) :
    ∃ t, exec i s = .next t ∧ t.mask_o = zextOut (REF i.vec) :=
  ⟨_, exec_eq_drive_REF h s, rfl⟩

theorem exec_mask_of_vec_eq_spread {i : Instr} {m : LaneMask} (h : i.vec = spread m) (s : State) :
    ∃ t, exec i s = .next t ∧ t.mask_o = zextOut m := by
  have hmask := exec_mask_of_wellFormed (wellFormed_of_wf (h ▸ wf_spread m)) s
  rwa [h, REF_spread] at hmask

theorem vec_of_decode {r : Request} {i : Instr} (h : decode r = .ok i) : i.vec = r.vec := by
  rw [← encode_vec, (decode_eq_ok_iff r i).mp h]

@[simp] theorem State.driveResult_vec_i (s : State) (sel : Sel) (V : LaneVector) (res : Result) :
    (s.driveResult sel V res).vec_i = s.vec_i := by
  cases res <;> rfl

@[simp] theorem State.driveResult_presented (s : State) (sel : Sel) (V : LaneVector) (res : Result) :
    (s.driveResult sel V res).presented = s.presented := by
  cases res <;> rfl

/-- After a step the output port is the function of the input ports wherever that is defined (R25, R125). -/
theorem mask_of_step {s t : State} (h : step s = .next t) (hdomain : t.presented.inDomain = true) :
    t.mask_o = zextOut (REF t.vec_i) := by
  obtain ⟨r, rest, i, -, hd, -, -, hrec⟩ := step_next s t h
  rw [exec_eq, recordNext_next] at hrec
  cases hrec
  have hwf : i.wellFormed = true := by simpa [inDomain_of_decode hd] using hdomain
  simp [resultOf_of_wellFormed hwf, vec_of_decode hd]

/-! The zero extension (R52). -/

theorem extractLsb'_zextOut (m : LaneMask) : (zextOut m).extractLsb' 0 16 = m := by
  rw [zextOut, BitVec.extractLsb'_setWidth_of_le Config.outPort.atLeast16, BitVec.extractLsb'_eq_self]

theorem getLsbD_zextOut_of_ge (m : LaneMask) {b : Nat} (hb : 16 ≤ b) : (zextOut m).getLsbD b = false := by
  rw [zextOut, BitVec.getLsbD_setWidth, BitVec.getLsbD_of_ge m b hb, Bool.and_false]

theorem toNat_zextOut_lt (m : LaneMask) : (zextOut m).toNat < 2 ^ 16 := by
  rw [zextOut, BitVec.toNat_setWidth_of_le Config.outPort.atLeast16]
  exact m.isLt

/-! The wrapper of R50. -/

theorem pack_encode (i : Instr) : pack (encode i).sel (encode i).vec = some (resultOf i) := by
  cases i <;> rfl

theorem pack_of_decode {r : Request} {i : Instr} (h : decode r = .ok i) : pack r.sel r.vec = some (resultOf i) := by
  rw [← (decode_eq_ok_iff r i).mp h, pack_encode]

theorem pack_of_not_legal {r : Request} (h : r.legal = false) : pack r.sel r.vec = none := by
  rcases r.legal_eq_false_iff.mp h with hsel | hsel
  all_goals
    rw [hsel]
    rfl

/-- The wrapper gives nothing exactly for the reserved selects (R44). -/
theorem pack_eq_none_iff (r : Request) : pack r.sel r.vec = none ↔ r.legal = false := by
  refine ⟨fun h => ?_, pack_of_not_legal⟩
  rcases decode_cases r with ⟨i, hd, -, -⟩ | ⟨-, hl⟩
  · rw [pack_of_decode hd] at h
    cases h
  · exact hl

theorem pack_eq_undefined_iff (r : Request) :
    pack r.sel r.vec = some .undefined ↔ (r.sel = 1 ∨ r.sel = 2 ∨ r.sel = 5) ∧ wf r.vec = false := by
  rcases decode_cases r with ⟨i, hd, rfl, -⟩ | ⟨-, hl⟩
  · rw [pack_encode, Option.some_inj, resultOf_eq_undefined_iff, wellFormed_eq_false_iff, encode_vec]
  · rw [pack_of_not_legal hl]
    rcases r.legal_eq_false_iff.mp hl with hsel | hsel <;> simp [hsel]

/-- What a step makes of a request that the wrapper answers: the wrapper's result is driven and recorded. -/
theorem step_of_pack {s : State} {r : Request} {rest : List Request} {res : Result} (hs : s.requests = r :: rest)
    (h : pack r.sel r.vec = some res) :
    step s = .next ((s.present r rest).driveResult r.sel r.vec res).record := by
  rcases decode_cases r with ⟨i, hd, hr, -⟩ | ⟨-, hl⟩
  · rw [pack_of_decode hd, Option.some_inj] at h
    rw [step_of_decode hs hd, exec_eq, recordNext_next, h, hr, vec_of_decode hd]
  · rw [pack_of_not_legal hl] at h
    cases h

/-! The obligations. -/

/-- Settles O49: the evaluation a step adds is that of the request on the ports, and
the ports agree after every step. -/
theorem stepKeepsTheInvariant : Obligations.StepKeepsTheInvariant := by
  unfold Obligations.StepKeepsTheInvariant
  intro s t hinv hstep
  obtain ⟨r, -, hpresented, hlegal, hobserved, -⟩ := stepConsumesOneRequestAndRecordsOneEvaluation s t hstep
  have hagree : t.presented.inDomain = true → t.mask_o = zextOut (REF t.vec_i) := mask_of_step hstep
  rw [← hpresented] at hlegal hobserved
  refine ⟨fun e he => ?_, fun e he => ?_, hagree, fun e he => ?_⟩
  · rw [hobserved, List.mem_append, List.mem_singleton] at he
    rcases he with hold | rfl
    · exact hinv.correct e hold
    · exact hagree
  · rw [hobserved, List.mem_append, List.mem_singleton] at he
    rcases he with hold | rfl
    · exact hinv.legal e hold
    · exact hlegal
  · rw [hobserved, List.getLast?_concat] at he
    exact (Option.some.inj he).symm

/-- Settles O30: outside its domain an instruction draws. -/
theorem strictVariantsGoOnWhenTheOperandIsMalformed : Obligations.StrictVariantsGoOnWhenTheOperandIsMalformed := by
  unfold Obligations.StrictVariantsGoOnWhenTheOperandIsMalformed
  intro V s i hV hi
  have hmalformed : i.wellFormed = false := by
    rcases hi with rfl | rfl | rfl <;> exact hV
  rcases exec_cases i s with ⟨hwf, -⟩ | ⟨-, mask, hexec⟩
  · rw [hmalformed] at hwf
    cases hwf
  · exact ⟨mask, hexec⟩

/-- Settles O31: both conditions put the operand in the variant's domain. -/
theorem everyVariantMeetsTheContractOnItsDomain : Obligations.EveryVariantMeetsTheContractOnItsDomain := by
  unfold Obligations.EveryVariantMeetsTheContractOnItsDomain
  refine ⟨fun V i hi => getLsbD_REF V i hi, fun V i hwf hi => ?_, ?_⟩
  · rw [getLsbD_REF V i hi]
    exact signBit_iff_of_wf hwf i hi
  · rintro V i rfl hdomain s
    exact exec_mask_of_wellFormed (hdomain.elim wellFormed_of_signBitPacker wellFormed_of_wf) s

/-- Settles O32: the port is driven with a zero extension. -/
theorem definedResultHasZerosAboveItsSixteenBits : Obligations.DefinedResultHasZerosAboveItsSixteenBits := by
  unfold Obligations.DefinedResultHasZerosAboveItsSixteenBits
  intro i s hwf
  exact ⟨_, exec_eq_drive_REF hwf s, extractLsb'_zextOut _, fun _ hb => getLsbD_zextOut_of_ge _ hb,
    toNat_zextOut_lt _⟩

/-- Settles O33: both drive the mask of the one operand. -/
theorem variantsAgreeWhereTheyAreDefined : Obligations.VariantsAgreeWhereTheyAreDefined := by
  unfold Obligations.VariantsAgreeWhereTheyAreDefined
  intro i j s hvec hdomain
  have hboth : i.wellFormed = true ∧ j.wellFormed = true := by
    rcases hdomain with hwf | ⟨hi, hj⟩
    · exact ⟨wellFormed_of_wf hwf, wellFormed_of_wf (hvec ▸ hwf)⟩
    · exact ⟨wellFormed_of_signBitPacker hi, wellFormed_of_signBitPacker hj⟩
  obtain ⟨hi, hj⟩ := hboth
  exact ⟨by rw [exec_eq_drive_REF hi, exec_eq_drive_REF hj, hvec], exec_mask_of_wellFormed hi s⟩

/-- Settles O34: each of the listed operands is the spread of the mask it is to give. -/
theorem everyVariantReturnsTheMaskThatWasSpread : Obligations.EveryVariantReturnsTheMaskThatWasSpread := by
  unfold Obligations.EveryVariantReturnsTheMaskThatWasSpread
  have hzero : 0#128 = spread 0x0000#16 := by decide
  have hones : BitVec.allOnes 128 = spread 0xFFFF#16 := by decide
  have hsingle : ∀ k, k < 16 → 0xFF#128 <<< (8 * k) = spread (1#16 <<< k) := by decide
  exact ⟨fun _ _ s h => exec_mask_of_vec_eq_spread h s,
    fun _ s h => exec_mask_of_vec_eq_spread (h.trans hzero) s,
    fun _ s h => exec_mask_of_vec_eq_spread (h.trans hones) s,
    fun _ k s hk h => exec_mask_of_vec_eq_spread (h.trans (hsingle k hk)) s⟩

/-- Settles O42: decoding a request chooses the variant whose result the wrapper gives. -/
theorem stepAnswersAsPackDoes : Obligations.StepAnswersAsPackDoes := by
  unfold Obligations.StepAnswersAsPackDoes
  refine ⟨fun sel V => pack_eq_undefined_iff ⟨sel, V⟩,
    fun sel V => (pack_eq_none_iff ⟨sel, V⟩).trans (Request.legal_eq_false_iff ⟨sel, V⟩),
    fun s r rest hs => ⟨fun mask h => step_of_pack hs h, fun h => ⟨_, step_of_pack hs h⟩,
      fun h => step_of_not_legal hs ((pack_eq_none_iff r).mp h)⟩⟩

/-- Settles O47: the step after the first one starts from a state whose next request is defined, and that is all it
needs. -/
theorem undefinedOutcomeLeavesNothingBehind : Obligations.UndefinedOutcomeLeavesNothingBehind := by
  unfold Obligations.UndefinedOutcomeLeavesNothingBehind
  intro s u r rest hu hr hs
  obtain ⟨m, hfirst, hm⟩ := step_of_legal hs hu
  obtain ⟨mask, hdrive⟩ := step_of_inDomain hr
  have hsecond := hdrive m rest hm
  exact ⟨_, (run_succ_of_step hfirst 1).trans (run_succ_of_step hsecond 0), mask_of_step hsecond hr⟩

/-- Settles O7, by the table of R53. -/
theorem capabilityClassesOfTheVariants : Obligations.CapabilityClassesOfTheVariants := by
  unfold Obligations.CapabilityClassesOfTheVariants
  exact fun _ => ⟨rfl, rfl, rfl, rfl, rfl, rfl⟩

end Sys2Proof.Machine
end

section
/-! SUPPORT. The weighted-sum packers (41_weighted_sum.md): the sum of a half is its low byte alone, so the combining
add of variant 2 has no carry and the two sums are the two bytes of variant 1's mask, then the theorems that settle the
family. -/

namespace Sys2Proof.Machine

/-! The sum of a half is its low byte (R63). -/

theorem getLsbD_sum64_of_ge (V : LaneVector) {h b : Nat} (hh : h < 2) (hb : 8 ≤ b) :
    (sum64 V h).getLsbD b = false := by
  have hlt : (sum64 V h).toNat < 2 ^ 8 := Nat.lt_succ_of_le (toNat_sum64_le V hh)
  exact Nat.testBit_lt_two_pow (hlt.trans_le (Nat.pow_le_pow_right (by decide) hb))

theorem sum64_eq_setWidth_byte (V : LaneVector) {h : Nat} (hh : h < 2) :
    sum64 V h = (byte (sum64 V h) 0).setWidth 64 := by
  have hle := toNat_sum64_le V hh
  apply BitVec.eq_of_toNat_eq
  rw [BitVec.toNat_setWidth_of_le (by decide), toNat_byte_zero, Nat.mod_eq_of_lt (by omega)]

/-- Variant 2's addends share no bit: the low sum ends below bit 8, where the shifted high sum begins (R62). -/
theorem combined2_eq_or (V : LaneVector) : combined2 V = (sum64 V 0 ||| (sum64 V 1 <<< 8)) := by
  refine add_eq_or_of_disjoint _ _ ?_
  rintro b - ⟨hlow, hhigh⟩
  by_cases hb : b < 8
  · simp [BitVec.getLsbD_shiftLeft, hb] at hhigh
  · simp [getLsbD_sum64_of_ge V (by decide : 0 < 2) (Nat.le_of_not_lt hb)] at hlow

/-! The sums of a well-formed operand (R63). -/

theorem weighted_of_wf_eq_ite_lane {V : LaneVector} (h : wf V = true) {i : Nat} (hi : i < 16) :
    weighted V i = if lane V i = 0xFF#8 then WT i else 0#8 := by
  rw [weighted_of_wf h hi]
  exact if_congr (signBit_iff_of_wf h i hi) rfl rfl

theorem sum64_zero_of_wf {V : LaneVector} (h : wf V = true) :
    sum64 V 0 = ((REF V).extractLsb' 0 8).setWidth 64 := by
  have hlow : (REF V).extractLsb' 0 8 = byte (sum64 V 0) 0 := by
    rw [← packMask1_of_wf h, packMask1, BitVec.extractLsb'_append_eq_right]
  rw [hlow]
  exact sum64_eq_setWidth_byte V (by decide)

theorem sum64_one_of_wf {V : LaneVector} (h : wf V = true) :
    sum64 V 1 = ((REF V).extractLsb' 8 8).setWidth 64 := by
  have hhigh : (REF V).extractLsb' 8 8 = byte (sum64 V 1) 0 := by
    rw [← packMask1_of_wf h, packMask1, BitVec.extractLsb'_append_eq_left]
  rw [hhigh]
  exact sum64_eq_setWidth_byte V (by decide)

/-! The obligations. -/

/-- Settles O18: the sum of a half is exact and bounded by its weights, and variant 1's mask is the two sums' low
bytes. -/
theorem weightedSumsAreTheBytesOfTheMask : Obligations.WeightedSumsAreTheBytesOfTheMask := by
  unfold Obligations.WeightedSumsAreTheBytesOfTheMask
  exact fun V => ⟨fun i _ => weighted_le_WT V i,
    fun h hh => ⟨toNat_sum64 V h, toNat_sum64_le V hh, fun _ hb => getLsbD_sum64_of_ge V hh hb⟩,
    fun hwf => ⟨fun _ hi => weighted_of_wf_eq_ite_lane hwf hi, sum64_zero_of_wf hwf, sum64_one_of_wf hwf⟩⟩

/-- Settles O19: no sum leaves its byte, whether or not the operand is well formed. -/
theorem theTwoWeightedSumCombinesAgreeOnEveryOperand :
    Obligations.TheTwoWeightedSumCombinesAgreeOnEveryOperand := by
  unfold Obligations.TheTwoWeightedSumCombinesAgreeOnEveryOperand
  exact fun V => ⟨(packMask2_eq_packMask1 V).symm, combined2_eq_or V⟩

/-- Settles O24: a well-formed operand is in the defined domain of variant 1. -/
theorem packVariant1DrivesTheMaskOfAWellFormedOperand :
    Obligations.PackVariant1DrivesTheMaskOfAWellFormedOperand := by
  unfold Obligations.PackVariant1DrivesTheMaskOfAWellFormedOperand
  exact fun V s hwf => exec_eq_drive_REF (i := .packVariant1 V) (wellFormed_of_wf hwf) s

/-- Settles O25: a well-formed operand is in the defined domain of variant 2. -/
theorem packVariant2DrivesTheMaskOfAWellFormedOperand :
    Obligations.PackVariant2DrivesTheMaskOfAWellFormedOperand := by
  unfold Obligations.PackVariant2DrivesTheMaskOfAWellFormedOperand
  exact fun V s hwf => exec_eq_drive_REF (i := .packVariant2 V) (wellFormed_of_wf hwf) s

/-- Settles O17, entry by entry. -/
theorem constantTablesHoldTheirClosedForms : Obligations.ConstantTablesHoldTheirClosedForms := by
  unfold Obligations.ConstantTablesHoldTheirClosedForms
  exact ⟨by decide, by decide, OFF5_eq⟩

end Sys2Proof.Machine
end

section
/-! SUPPORT. The doubling tree (42_sign_bit_tree.md): every stage keeps to a fixed set of bits, and moving that set by
the stage's stride never meets the set itself, then the theorems that settle the family. -/

namespace Sys2Proof.Machine

variable {w : Nat}

/-! Values within a set of bits (R72). -/

/-- Every set bit of `x` is a set bit of `m`. -/
def WithinMask (x m : BitVec w) : Prop := ∀ b, x.getLsbD b = true → m.getLsbD b = true

theorem WithinMask.append {hi lo m : BitVec w} (hhi : WithinMask hi m) (hlo : WithinMask lo m) :
    WithinMask (hi ++ lo) (m ++ m) := by
  intro b hb
  rw [BitVec.getLsbD_append] at hb ⊢
  split
  next h => exact hlo b (by rwa [if_pos h] at hb)
  next h => exact hhi (b - w) (by rwa [if_neg h] at hb)

/-- A value shares no bit with its shift when the set of bits it keeps to shares none with its own. -/
theorem WithinMask.and_ushiftRight_eq_zero {x m : BitVec w} (hx : WithinMask x m) {s : Nat}
    (hm : m &&& (m >>> s) = 0#w) : x &&& (x >>> s) = 0#w := by
  apply BitVec.eq_of_getLsbD_eq
  intro b _
  rw [BitVec.getLsbD_zero, ← Bool.not_eq_true, BitVec.getLsbD_and, BitVec.getLsbD_ushiftRight, Bool.and_eq_true]
  rintro ⟨hb, hsb⟩
  have hclash : (m &&& (m >>> s)).getLsbD b = true := by
    rw [BitVec.getLsbD_and, BitVec.getLsbD_ushiftRight, hx b hb, hx (s + b) hsb, Bool.and_self]
  rw [hm] at hclash
  exact absurd hclash (by simp)

/-- With no carry, the sum keeps to the set and its shift. -/
theorem withinMask_sracc {x m : BitVec w} (hx : WithinMask x m) {s : Nat} (hm : m &&& (m >>> s) = 0#w) :
    WithinMask (sracc x s) (m ||| (m >>> s)) := by
  intro b hb
  rw [sracc, BitVec.add_eq_or_of_and_eq_zero _ _ (hx.and_ushiftRight_eq_zero hm), BitVec.getLsbD_or,
    BitVec.getLsbD_ushiftRight, Bool.or_eq_true] at hb
  rw [BitVec.getLsbD_or, BitVec.getLsbD_ushiftRight, Bool.or_eq_true]
  exact hb.imp (hx b) (hx (s + b))

/-! The bits of the four vectors of the tree (R72): the lanes of `A`, then each stage's elements. -/

theorem signBits3_within (V : LaneVector) (i : Nat) : WithinMask (signBits3 V i) 0x01#8 := by
  have hbit : signBits3 V i = if signBit V i then 0x01#8 else 0x00#8 := by
    apply BitVec.eq_of_toNat_eq
    rw [toNat_signBits3]
    cases signBit V i <;> rfl
  rw [hbit]
  cases signBit V i
  · exact fun b hb => absurd hb (by simp)
  · exact fun _ hb => hb

theorem elem16_signVec3_within (V : LaneVector) {j : Nat} (hj : j < 8) :
    WithinMask (elem 16 (signVec3 V) j) 0x0101#16 := by
  rw [signVec3, elem16_assemble 128 _ 16 j (by omega) (by omega)]
  exact (signBits3_within V _).append (signBits3_within V _)

theorem acc16_within (V : LaneVector) {j : Nat} (hj : j < 8) : WithinMask (acc16 V j) 0x0103#16 :=
  withinMask_sracc (s := stride16) (elem16_signVec3_within V hj) (by decide)

theorem elem32_accVec16_within (V : LaneVector) {j : Nat} (hj : j < 4) :
    WithinMask (elem 32 (accVec16 V) j) 0x01030103#32 := by
  rw [accVec16, elem32_eq_halves, elem_assemble 128 _ 8 _ (by omega) (by omega),
    elem_assemble 128 _ 8 _ (by omega) (by omega)]
  exact (acc16_within V (by omega)).append (acc16_within V (by omega))

theorem acc32_within (V : LaneVector) {j : Nat} (hj : j < 4) : WithinMask (acc32 V j) 0x0103050F#32 :=
  withinMask_sracc (s := stride32) (elem32_accVec16_within V hj) (by decide)

theorem elem64_accVec32_within (V : LaneVector) {h : Nat} (hh : h < 2) :
    WithinMask (elem 64 (accVec32 V) h) 0x0103050F0103050F#64 := by
  rw [accVec32, elem64_eq_halves, elem_assemble 128 _ 4 _ (by omega) (by omega),
    elem_assemble 128 _ 4 _ (by omega) (by omega)]
  exact (acc32_within V (by omega)).append (acc32_within V (by omega))

/-! The 64-bit elements: their bound and their low byte (R72). -/

theorem toNat_acc64_le (V : LaneVector) {h : Nat} (hh : h < 2) : (acc64 V h).toNat ≤ 0x0103050F113355FF := by
  have hodd := toNat_acc32_le V (j := 2 * h + 1) (by omega)
  have heven := toNat_acc32_le V (j := 2 * h) (by omega)
  rw [toNat_acc64 V hh]
  omega

/-- The mask is the two low bytes side by side, so each is its byte of the reference mask. -/
theorem byte_acc64_eq_REF (V : LaneVector) {h : Nat} (hh : h < 2) :
    byte (acc64 V h) 0 = (REF V).extractLsb' (8 * h) 8 := by
  rw [← packMask3_eq_REF, packMask3]
  match h, hh with
  | 0, _ => exact BitVec.extractLsb'_append_eq_right.symm
  | 1, _ => exact BitVec.extractLsb'_append_eq_left.symm

/-! The obligations. -/

/-- Settles O20: at each width the bits an element can have miss those bits moved by the stride. -/
theorem doublingTreeGathersTheSignBits : Obligations.DoublingTreeGathersTheSignBits := by
  unfold Obligations.DoublingTreeGathersTheSignBits
  refine fun V => ⟨fun j hj => ⟨?_, toNat_acc16_le V hj⟩, fun j hj => ⟨?_, toNat_acc32_le V hj⟩,
    fun h hh => ⟨?_, toNat_acc64_le V hh, byte_acc64_eq_REF V hh⟩⟩
  · exact (elem16_signVec3_within V hj).and_ushiftRight_eq_zero (by decide)
  · exact (elem32_accVec16_within V hj).and_ushiftRight_eq_zero (by decide)
  · exact (elem64_accVec32_within V hh).and_ushiftRight_eq_zero (by decide)

/-- Settles O26: every operand is in the defined domain of variant 3. -/
theorem packVariant3DrivesTheMaskOfAnyOperand : Obligations.PackVariant3DrivesTheMaskOfAnyOperand := by
  unfold Obligations.PackVariant3DrivesTheMaskOfAnyOperand
  exact fun V s => exec_eq_drive_REF (i := .packVariant3 V) rfl s

end Sys2Proof.Machine
end

section
/-! SUPPORT. The half-vector scalar shift (43_half_vector_shift.md): before each pairwise add element `j` keeps to block
`j` of the byte's bits, and the add joins two neighbouring blocks into one, then the theorems that settle the family. -/

namespace Sys2Proof.Machine

variable {w : Nat}

/-! Elements that keep to their own blocks of bits (R82). -/

/-- Each of the first `n` elements has its set bits in the block of `k` bits that has the element's own index. -/
def BitsInOwnBlock (k n : Nat) (X : Elems w) : Prop := ∀ j b, j < n → (X j).getLsbD b = true → b / k = j

/-- The two elements of a pair lie in different blocks. -/
theorem BitsInOwnBlock.pair_and_eq_zero {k n : Nat} {X : Elems w} (hX : BitsInOwnBlock k n X) {j : Nat}
    (hj : 2 * j + 1 < n) : X (2 * j) &&& X (2 * j + 1) = 0#w := by
  apply BitVec.eq_of_getLsbD_eq
  intro b _
  rw [BitVec.getLsbD_zero, ← Bool.not_eq_true, BitVec.getLsbD_and, Bool.and_eq_true]
  rintro ⟨heven, hodd⟩
  have hblock := hX _ b (by omega) heven
  have hnext := hX _ b hj hodd
  omega

theorem BitsInOwnBlock.padd_eq_or {k n : Nat} {X : Elems w} (hX : BitsInOwnBlock k n X) {j : Nat}
    (hj : 2 * j + 1 < n) : padd X j = X (2 * j) ||| X (2 * j + 1) :=
  BitVec.add_eq_or_of_and_eq_zero _ _ (hX.pair_and_eq_zero hj)

theorem BitsInOwnBlock.toNat_padd {k n : Nat} {X : Elems w} (hX : BitsInOwnBlock k n X) {j : Nat}
    (hj : 2 * j + 1 < n) : (padd X j).toNat = (X (2 * j)).toNat + (X (2 * j + 1)).toNat :=
  BitVec.toNat_add_of_and_eq_zero (hX.pair_and_eq_zero hj)

/-- A pairwise add halves the elements and doubles their blocks. -/
theorem bitsInOwnBlock_padd {k n : Nat} {X : Elems w} (hX : BitsInOwnBlock k (2 * n) X) :
    BitsInOwnBlock (k * 2) n (padd X) := by
  intro j b hj hb
  rw [hX.padd_eq_or (by omega), BitVec.getLsbD_or, Bool.or_eq_true] at hb
  rw [← Nat.div_div_eq_div_mul]
  rcases hb with heven | hodd
  · have hblock := hX _ b (by omega) heven
    omega
  · have hblock := hX _ b (by omega) hodd
    omega

/-! The three stages of the half mask (R81, R82). -/

theorem toNat_placed4 (H : Elems 8) {j : Nat} (hj : j < 8) :
    (placed4 H j).toNat = if (H j).getLsbD 7 then 2 ^ j else 0 := by
  rw [placed4_eq H hj, toNat_chosenWeights _ hj]
  cases (H j).getLsbD 7 <;> simp

theorem placed4_bitsInOwnBlock (H : Elems 8) : BitsInOwnBlock 1 8 (placed4 H) := by
  intro j b hj hb
  rw [← BitVec.testBit_toNat, toNat_placed4 H hj] at hb
  rw [Nat.div_one]
  split at hb
  · rw [Nat.testBit_two_pow, decide_eq_true_eq] at hb
    exact hb.symm
  · rw [Nat.zero_testBit] at hb
    cases hb

theorem fold4_bitsInOwnBlock (H : Elems 8) : BitsInOwnBlock 2 4 (fold4 H) :=
  bitsInOwnBlock_padd (k := 1) (n := 4) (placed4_bitsInOwnBlock H)

theorem fold2_bitsInOwnBlock (H : Elems 8) : BitsInOwnBlock 4 2 (fold2 H) :=
  bitsInOwnBlock_padd (k := 2) (n := 2) (fold4_bitsInOwnBlock H)

theorem getLsbD_halfMask (H : Elems 8) {j : Nat} (hj : j < 8) : (halfMask H).getLsbD j = (H j).getLsbD 7 := by
  rw [halfMask_eq_chosenWeights, getLsbD_hsum_chosenWeights _ hj]

/-! The obligations. -/

/-- Settles O21: at every stage the two addends lie in different blocks of bits. -/
theorem halfMaskHoldsTheSignBitsOfItsHalf : Obligations.HalfMaskHoldsTheSignBitsOfItsHalf := by
  unfold Obligations.HalfMaskHoldsTheSignBitsOfItsHalf
  intro H
  have hplaced := placed4_bitsInOwnBlock H
  have hfold4 := fold4_bitsInOwnBlock H
  have hfold2 := fold2_bitsInOwnBlock H
  exact ⟨fun _ hj => toNat_placed4 H hj,
    fun _ hj => ⟨hplaced.toNat_padd (by omega), hplaced.padd_eq_or (by omega)⟩,
    fun _ hj => ⟨hfold4.toNat_padd (by omega), hfold4.padd_eq_or (by omega)⟩,
    hfold2.toNat_padd (j := 0) (by decide), hfold2.padd_eq_or (j := 0) (by decide),
    fun _ hj => getLsbD_halfMask H hj⟩

/-- Settles O27: every operand is in the defined domain of variant 4. -/
theorem packVariant4DrivesTheMaskOfAnyOperand : Obligations.PackVariant4DrivesTheMaskOfAnyOperand := by
  unfold Obligations.PackVariant4DrivesTheMaskOfAnyOperand
  exact fun V s => exec_eq_drive_REF (i := .packVariant4 V) rfl s

end Sys2Proof.Machine
end

section
/-! SUPPORT. The paired bit extraction (44_paired_bit_extract.md): word `k` keeps to the two mask bits `2k` and `2k + 1`,
so the horizontal sum of the eight words is exact, then the theorems that settle the family. -/

namespace Sys2Proof.Machine

variable {w : Nat}

/-! Sums of terms that share no bit. -/

/-- With no bit shared there is no carry, so the sum does not wrap (R92, R102). -/
theorem toNat_hsum_of_disjoint (X : Elems w) (n : Nat)
    (hX : ∀ i j b, i < n → j < n → i ≠ j → ¬ ((X i).getLsbD b = true ∧ (X j).getLsbD b = true)) :
    (hsum X n).toNat = ((List.range n).map fun j => (X j).toNat).sum := by
  induction n with
  | zero => rfl
  | succ n ih =>
    have hXn : ∀ i j b, i < n → j < n → i ≠ j → ¬ ((X i).getLsbD b = true ∧ (X j).getLsbD b = true) :=
      fun i j b hi hj => hX i j b (Nat.lt_succ_of_lt hi) (Nat.lt_succ_of_lt hj)
    have hand : hsum X n &&& X n = 0#w := by
      apply BitVec.eq_of_getLsbD_eq
      intro b _
      rw [BitVec.getLsbD_zero, ← Bool.not_eq_true, BitVec.getLsbD_and, Bool.and_eq_true,
        getLsbD_hsum_of_disjoint X n hXn, List.any_eq_true]
      rintro ⟨⟨j, hj, hjb⟩, hnb⟩
      have hjn := List.mem_range.mp hj
      exact hX j n b (by omega) (by omega) (by omega) ⟨hjb, hnb⟩
    rw [hsum_succ, BitVec.toNat_add_of_and_eq_zero hand, ih hXn, List.range_succ, List.map_append, List.sum_append,
      List.map_singleton, List.sum_singleton]

/-- Elements in different blocks share no bit. -/
theorem BitsInOwnBlock.toNat_hsum {k n : Nat} {X : Elems w} (hX : BitsInOwnBlock k n X) :
    (hsum X n).toNat = ((List.range n).map fun j => (X j).toNat).sum :=
  toNat_hsum_of_disjoint X n fun i j b hi hj hij ⟨hbi, hbj⟩ => hij ((hX i b hi hbi).symm.trans (hX j b hj hbj))

/-! The words of variant 5 and the bits of its mask (R91, R92). -/

theorem bit_of_pairs5 {V : LaneVector} {k b : Nat} (h : (pairs5 V k).getLsbD b = true) : b = 7 ∨ b = 8 := by
  rw [getLsbD_pairs5, Bool.and_eq_true, decide_eq_true_eq] at h
  exact h.1

theorem spread5_bitsInOwnBlock (V : LaneVector) : BitsInOwnBlock 2 8 (spread5 V) := by
  intro k b hk h
  rw [getLsbD_spread5 V hk (BitVec.lt_of_getLsbD h), Bool.and_eq_true, decide_eq_true_eq] at h
  exact h.1

/-- An even mask bit is bit 7 of the even lane, the low byte's part of the pair (R92). -/
theorem getLsbD_packMask5_even (V : LaneVector) {k : Nat} (hk : k < 8) :
    (packMask5 V).getLsbD (2 * k) = (lane V (2 * k)).getLsbD 7 := by
  have hpos : 16 * (2 * k / 2) + 7 + 2 * k % 2 = 8 * (2 * k) + 7 := by omega
  rw [getLsbD_packMask5 V (by omega), hpos, lane, getLsbD_elem_of_lt V _ (by decide)]

/-- An odd mask bit is bit 0 of the odd lane, the high byte's part of the pair (R92). -/
theorem getLsbD_packMask5_odd (V : LaneVector) {k : Nat} (hk : k < 8) :
    (packMask5 V).getLsbD (2 * k + 1) = (lane V (2 * k + 1)).getLsbD 0 := by
  have hpos : 16 * ((2 * k + 1) / 2) + 7 + (2 * k + 1) % 2 = 8 * (2 * k + 1) + 0 := by omega
  rw [getLsbD_packMask5 V (by omega), hpos, lane, getLsbD_elem_of_lt V _ (by decide)]

/-! The obligations. -/

/-- Settles O22: each shifted word keeps to its own two mask bits, so the sum is exact and has the words' bits. -/
theorem pairedBitsLandAtTheirMaskPositions : Obligations.PairedBitsLandAtTheirMaskPositions := by
  unfold Obligations.PairedBitsLandAtTheirMaskPositions
  intro V
  have hspread := spread5_bitsInOwnBlock V
  refine ⟨fun _ _ _ h => bit_of_pairs5 h, fun k b hk h => ?_, hspread.toNat_hsum,
    fun _ hk => ⟨getLsbD_packMask5_even V hk, getLsbD_packMask5_odd V hk⟩, packMask5_of_wf⟩
  have hblock := hspread k b hk h
  omega

/-- Settles O28: a well-formed operand is in the defined domain of variant 5. -/
theorem packVariant5DrivesTheMaskOfAWellFormedOperand :
    Obligations.PackVariant5DrivesTheMaskOfAWellFormedOperand := by
  unfold Obligations.PackVariant5DrivesTheMaskOfAWellFormedOperand
  exact fun V s hwf => exec_eq_drive_REF (i := .packVariant5 V) (wellFormed_of_wf hwf) s

end Sys2Proof.Machine
end

section
/-! SUPPORT. The sign-bit interleave (45_sign_interleave.md): word `j` is the weights of lanes `8 + j` and `j` side by
side, and only it has mask bits `j` and `8 + j`, then the theorems that settle the family. -/

namespace Sys2Proof.Machine

/-! The value of a word (R102). -/

/-- The zip puts lane `8 + j`'s weight above lane `j`'s, and the two lanes have the same weight (R101). -/
theorem words6_eq_chosenWeights (V : LaneVector) {j : Nat} (hj : j < 8) :
    words6 V j = chosenWeights (fun j => signBit V (8 + j)) j ++ chosenWeights (signBit V) j := by
  rw [words6_eq V hj, weighted6_eq, weighted6_eq, WT_add_eight j hj, chosenWeights, chosenWeights]

theorem toNat_words6 (V : LaneVector) {j : Nat} (hj : j < 8) :
    (words6 V j).toNat = 2 ^ j * (signBit V j).toNat + 2 ^ (8 + j) * (signBit V (8 + j)).toNat := by
  rw [words6_eq_chosenWeights V hj, BitVec.toNat_append, ← Nat.shiftLeft_add_eq_or_of_lt (BitVec.isLt _),
    Nat.shiftLeft_eq, toNat_chosenWeights _ hj, toNat_chosenWeights _ hj]
  ring

/-! The sum of the words (R102). -/

theorem mod_eight_of_getLsbD_words6 {V : LaneVector} {j b : Nat} (hj : j < 8) (h : (words6 V j).getLsbD b = true) :
    b % 8 = j := by
  rw [getLsbD_words6 V hj (BitVec.lt_of_getLsbD h), Bool.and_eq_true, decide_eq_true_eq] at h
  exact h.1

/-- A bit's position names the one word that can have it, so the sum has no carry. -/
theorem toNat_packMask6 (V : LaneVector) :
    (packMask6 V).toNat = ((List.range 8).map fun j => (words6 V j).toNat).sum := by
  refine toNat_hsum_of_disjoint (words6 V) 8 fun i j b hi hj hij ⟨hbi, hbj⟩ => ?_
  exact hij ((mod_eight_of_getLsbD_words6 hi hbi).symm.trans (mod_eight_of_getLsbD_words6 hj hbj))

/-! The obligations. -/

/-- Settles O23: word `j` is two weights side by side, and no two words share a bit. -/
theorem interleavedWordsSumToTheMask : Obligations.InterleavedWordsSumToTheMask := by
  unfold Obligations.InterleavedWordsSumToTheMask
  exact fun V => ⟨fun _ hj => toNat_words6 V hj, toNat_packMask6 V, packMask6_eq_REF V⟩

/-- Settles O29: every operand is in the defined domain of variant 6. -/
theorem packVariant6DrivesTheMaskOfAnyOperand : Obligations.PackVariant6DrivesTheMaskOfAnyOperand := by
  unfold Obligations.PackVariant6DrivesTheMaskOfAnyOperand
  exact fun V s => exec_eq_drive_REF (i := .packVariant6 V) rfl s

end Sys2Proof.Machine
end

section
/-! SUPPORT. Exceptions (60_exceptions.md): a step's only answers are a next state and a refusal (R110, R112), then the
theorems that settle the family. -/

namespace Sys2Proof.Machine

/-- Everything a step can answer: a legal request goes on (R110, R111), and with a reserved one or none the step is
refused (R112; log 3). -/
theorem step_eq_next_or_refused (s : State) : (∃ t, step s = .next t) ∨ ∃ e, step s = .refused e := by
  cases hs : s.requests with
  | nil => exact .inr ⟨_, step_nil s hs⟩
  | cons r rest =>
    cases hlegal : r.legal with
    | false => exact .inr ⟨_, step_of_not_legal hs hlegal⟩
    | true =>
      obtain ⟨t, hstep, -⟩ := step_of_legal hs hlegal
      exact .inl ⟨t, hstep⟩

/-! The obligations. -/

/-- Settles O38: the two selects are those of a request that is not legal, which decoding rejects by its select alone. -/
theorem stepRefusesAReservedSelectWhateverTheOperand :
    Obligations.StepRefusesAReservedSelectWhateverTheOperand := by
  unfold Obligations.StepRefusesAReservedSelectWhateverTheOperand
  exact fun s r rest hs hsel => step_of_not_legal hs (r.legal_eq_false_iff.mpr hsel)

/-- Settles O36: every instruction goes on by driving its result, and a step's answers leave no place for a fault even
before the table of causes is seen to be empty. -/
theorem noRequestRaisesAnException : Obligations.NoRequestRaisesAnException := by
  unfold Obligations.NoRequestRaisesAnException
  refine ⟨fun i s => ⟨_, exec_eq i s⟩, fun s f hfault => ?_, ⟨fun f => nomatch f⟩⟩
  rcases step_eq_next_or_refused s with ⟨t, hstep⟩ | ⟨e, hstep⟩
  · cases hfault.symm.trans hstep
  · cases hfault.symm.trans hstep

/-- Settles O39: at reset no request has been placed, so its first step is one with an empty script. -/
theorem stepWithNoRequestIsRefused : Obligations.StepWithNoRequestIsRefused := by
  unfold Obligations.StepWithNoRequestIsRefused
  exact ⟨step_nil, step_nil State.reset rfl⟩

end Sys2Proof.Machine
end

section
/-! SUPPORT. The state before the first request and runs of legal requests (70_reset_and_hazards.md), and the words the
spec lists (95_test_vectors.md), then the theorems that settle the family. -/

namespace Sys2Proof

theorem inDomain_of_not_legal {r : Request} (h : r.legal = false) : r.inDomain = false := by
  simp only [Request.inDomain, decode_of_not_legal h]

/-- To know what a word decodes to it is enough to write that instruction down (R40, R42). -/
theorem decodeWord_of_encodeWord_eq {w : ReqWord} {i : Instr} (h : encodeWord i = w) : decodeWord w = .ok i :=
  h ▸ decodeOfEncodedWordIsTheInstruction i

end Sys2Proof

namespace Sys2Proof.Machine

/-- A legal request at the head of the script is answered by one step, with one right evaluation of it (R131). -/
theorem step_of_legal_records_correct {s : State} {r : Request} {rest : List Request} (hs : s.requests = r :: rest)
    (h : r.legal = true) :
    ∃ t e, step s = .next t ∧ t.requests = rest ∧ t.observed = s.observed ++ [e] ∧ e.request = r ∧ e.correct := by
  obtain ⟨t, hstep, hrest⟩ := step_of_legal hs h
  obtain ⟨r', hs', hpresented, -, hobserved, -⟩ := stepConsumesOneRequestAndRecordsOneEvaluation s t hstep
  have hcorrect : Evaluation.correct ⟨t.presented, t.mask_o⟩ := mask_of_step hstep
  have hr : r' = r := (List.cons.inj (hs'.symm.trans hs)).1
  rw [← hpresented] at hr hobserved
  exact ⟨t, _, hstep, hrest, hobserved, hr, hcorrect⟩

/-! The obligations. -/

/-- Settles O50, by induction on the requests of the run: the first step answers the first of them and leaves the rest
at the head of the script. -/
theorem goodRunAnswersEveryRequest : Obligations.GoodRunAnswersEveryRequest := by
  unfold Obligations.GoodRunAnswersEveryRequest
  intro rs rest
  induction rs with
  | nil => exact fun s _ hs => ⟨s, [], rfl, hs, (List.append_nil _).symm, rfl, nofun⟩
  | cons r rs ih =>
    intro s hgood hs
    obtain ⟨hr, hrs⟩ := List.forall_mem_cons.mp hgood
    obtain ⟨u, e, hstep, hreq, huobs, he, hcorrect⟩ := step_of_legal_records_correct hs hr
    obtain ⟨t, es, hrun, htreq, htobs, hes, hescorrect⟩ := ih u hrs hreq
    refine ⟨t, e :: es, (run_succ_of_step hstep _).trans hrun, htreq, ?_, ?_,
      List.forall_mem_cons.mpr ⟨hcorrect, hescorrect⟩⟩
    · rw [htobs, huobs, List.append_assoc, List.singleton_append]
    · rw [List.map_cons, he, hes]

/-- Settles O40, field by field. -/
theorem resetHoldsNoRequestAndNoEvaluation : Obligations.ResetHoldsNoRequestAndNoEvaluation := by
  unfold Obligations.ResetHoldsNoRequestAndNoEvaluation
  exact ⟨rfl, rfl, rfl, rfl, rfl, rfl⟩

/-- Settles O48: the record is empty, and the select at reset is reserved, so the ports are bound by nothing. -/
theorem invariantHoldsAtReset : Obligations.InvariantHoldsAtReset := by
  unfold Obligations.InvariantHoldsAtReset
  have hports : State.reset.presented.inDomain = false := inDomain_of_not_legal rfl
  exact ⟨nofun, nofun, fun h => absurd (hports.symm.trans h) Bool.false_ne_true, nofun⟩

/-- Settles O5: each of the six words that decode is the written word of its instruction, and the other two have the
reserved selects. -/
theorem knownWordsDecodeAsTheSpecLists : Obligations.KnownWordsDecodeAsTheSpecLists := by
  unfold Obligations.KnownWordsDecodeAsTheSpecLists
  exact ⟨decodeWord_of_encodeWord_eq (by decide), decodeWord_of_encodeWord_eq (by decide),
    decodeWord_of_encodeWord_eq (by decide), decodeWord_of_encodeWord_eq (by decide),
    decodeWord_of_encodeWord_eq (by decide), decodeWord_of_encodeWord_eq (by decide),
    decode_of_not_legal (by decide), decode_of_not_legal (by decide)⟩

end Sys2Proof.Machine
end
